-- ==== Sys2Proof/Word.lean ====
section
/-! DEFINITION. Word.lean: the bit widths of the machine (spec/00_scope.md R7, R8; spec/10_state.md). Everything is
unsigned; no value of this machine is ever read as signed (R8). -/

namespace Sys2Proof

/-- 8 bits: a general register, a timer, a byte of the Memory Image, the immediate `KK` (R20, R30, R31, R91). -/
abbrev Byte := BitVec 8

/-- 16 bits: an instruction word, `I`, `pc`, a stack entry, `FAULT_INFO` (R23, R27, R28, R36). -/
abbrev Word := BitVec 16

/-- 12 bits: the address immediate `NNN` (R91). -/
abbrev Addr12 := BitVec 12

/-- The index of a general register: the 4-bit field `X` or `Y`, so every index an instruction can name exists (R20). -/
abbrev RegIdx := Fin 16

/-- `FLAG_REG`: the index of `VF` (R7, R21). -/
abbrev flagReg : RegIdx := 15

end Sys2Proof
end

