-- ==== Sys2Proof/Machine/Flags.lean ====
section
/-! DEFINITION. Machine/Flags.lean: the values `VF` takes (spec/10_state.md R26), each computed from the operands read at
the start of the instruction (spec/41_register_alu.md R140). -/

namespace Sys2Proof.Machine

/-- A flag as a register value: 0 or 1, zero-extended to 8 bits (R26). -/
def flagByte (f : Bool) : Byte := if f then 1 else 0

/-- 8XY4: the unsigned sum exceeds 255 (R148). -/
def carryFlag (a b : Byte) : Byte := flagByte (decide (255 < a.toNat + b.toNat))

/-- 8XY5 and 8XY7: the minuend is strictly greater than the subtrahend (R149, R151). -/
def greaterFlag (minuend subtrahend : Byte) : Byte := flagByte (decide (subtrahend.toNat < minuend.toNat))

/-- 8XY6: bit 0 before the shift (R150). -/
def shiftedOutRight (a : Byte) : Byte := flagByte (a.getLsbD 0)

/-- 8XYE: bit 7 before the shift (R152). -/
def shiftedOutLeft (a : Byte) : Byte := flagByte (a.getLsbD 7)

/-- DXYN: some sprite bit of 1 met a pixel of 1 (R201, 90_conflicts.md C5). -/
def collisionFlag (hit : Bool) : Byte := flagByte hit

end Sys2Proof.Machine
end

