-- ==== Sys2Proof/Syntax.lean ====
section
/-! DEFINITION. Syntax.lean: the 34 instructions, one constructor per row of spec/opcode_table.json (spec/30_encoding.md
R106), in the table's order. An operand has the type of its field (R91, R93): `x`, `y` register selectors, `nnn` the
12-bit address, `kk` the byte, `n` the row count 0 to 15. An ignored field (R96) is no operand. -/

namespace Sys2Proof

inductive Instr where
  /-- 00E0 `CLS` (46_display.md R202). -/
  | cls
  /-- 00EE `RET` (40_flow_control.md R123). -/
  | ret
  /-- 1NNN `JP NNN` (R120). -/
  | jp (nnn : Addr12)
  /-- 2NNN `CALL NNN` (R122). -/
  | call (nnn : Addr12)
  /-- 3XKK `SE VX, KK` (R124). -/
  | seImm (x : RegIdx) (kk : Byte)
  /-- 4XKK `SNE VX, KK` (R125). -/
  | sneImm (x : RegIdx) (kk : Byte)
  /-- 5XY_ `SE VX, VY` (R126). -/
  | seReg (x y : RegIdx)
  /-- 6XKK `LD VX, KK` (41_register_alu.md R142). -/
  | ldImm (x : RegIdx) (kk : Byte)
  /-- 7XKK `ADD VX, KK` (R143). -/
  | addImm (x : RegIdx) (kk : Byte)
  /-- 8XY0 `LD VX, VY` (R144). -/
  | ldReg (x y : RegIdx)
  /-- 8XY1 `OR VX, VY` (R145). -/
  | orReg (x y : RegIdx)
  /-- 8XY2 `AND VX, VY` (R146). -/
  | andReg (x y : RegIdx)
  /-- 8XY3 `XOR VX, VY` (R147). -/
  | xorReg (x y : RegIdx)
  /-- 8XY4 `ADD VX, VY` (R148). -/
  | addReg (x y : RegIdx)
  /-- 8XY5 `SUB VX, VY` (R149). -/
  | sub (x y : RegIdx)
  /-- 8XY6 `SHR VX {, VY}` (R150). -/
  | shr (x y : RegIdx)
  /-- 8XY7 `SUBN VX, VY` (R151). -/
  | subn (x y : RegIdx)
  /-- 8XYE `SHL VX {, VY}` (R152). -/
  | shl (x y : RegIdx)
  /-- 9XY_ `SNE VX, VY` (R127). -/
  | sneReg (x y : RegIdx)
  /-- ANNN `LD I, NNN` (43_indexed_addressing.md R165). -/
  | ldI (nnn : Addr12)
  /-- BNNN `JP V0, NNN` (R121). -/
  | jpV0 (nnn : Addr12)
  /-- CXKK `RND VX, KK` (42_random.md R160). -/
  | rnd (x : RegIdx) (kk : Byte)
  /-- DXYN `DRW VX, VY, N` (46_display.md R201). -/
  | drw (x y : RegIdx) (n : Fin 16)
  /-- EX9E `SKP VX` (45_input.md R190). -/
  | skp (x : RegIdx)
  /-- EXA1 `SKNP VX` (R191). -/
  | sknp (x : RegIdx)
  /-- FX07 `LD VX, DT` (44_timers.md R180). -/
  | ldVxDt (x : RegIdx)
  /-- FX0A `LD VX, K` (R193). -/
  | ldVxK (x : RegIdx)
  /-- FX15 `LD DT, VX` (R181). -/
  | ldDtVx (x : RegIdx)
  /-- FX18 `LD ST, VX` (R182). -/
  | ldStVx (x : RegIdx)
  /-- FX1E `ADD I, VX` (R166). -/
  | addI (x : RegIdx)
  /-- FX29 `LD F, VX` (R167). -/
  | ldF (x : RegIdx)
  /-- FX33 `LD B, VX` (R168). -/
  | ldB (x : RegIdx)
  /-- FX55 `LD [I], VX` (R169). -/
  | ldMemVx (x : RegIdx)
  /-- FX65 `LD VX, [I]` (R170). -/
  | ldVxMem (x : RegIdx)
  deriving DecidableEq, Repr

end Sys2Proof
end

