-- ==== Sys2Proof/Config.lean ====
section
/-! DEFINITION. Config.lean: the implementation parameters of spec/00_scope.md R7 and the free values of the model. -/

namespace Sys2Proof

/-- `SHIFT_SOURCE` (R7, 92_eei_decisions.md D6): which register the two shift instructions read. -/
inductive ShiftSource where
  | x
  | y
  deriving DecidableEq, Repr

/-- The parameters of the core (R7). A machine carries one value of them, which no cycle changes (R205); the model takes
them as an argument by holding that value beside the state (log entry 2). -/
structure Config where
  /-- `FB_W`, framebuffer width in pixels, at least 1. -/
  fbW : Nat
  /-- `FB_H`, framebuffer height in pixels, at least 1. -/
  fbH : Nat
  /-- `GLYPH_ROM`, the 80 bytes of the glyph table (10_state.md R31). -/
  glyphRom : Vector Byte 80
  /-- `SHIFT_SOURCE`. -/
  shiftSource : ShiftSource
  deriving DecidableEq, Repr

/-- FREE VALUE (DESIGN CHOICE, safe, log entry 1): the key sample of a cycle whose sample the host has not settled in
`State.inputs`, applied to the counter `State.draws`. Any of the 65536 values may occur in any cycle (R243, U13): it
has no body, so nothing can be proved of it. -/
opaque Config.freeKey : Nat → BitVec 16

/-- FREE VALUE (DESIGN CHOICE, safe, log entry 1): the random byte of a cycle whose byte the host has not settled.
"A model treats `RND` as a free draw" (42_random.md R161, U12). -/
opaque Config.freeRnd : Nat → Byte

end Sys2Proof
end

