-- ==== Sys2Proof/WellFormed.lean ====
section
/-! DEFINITION. WellFormed.lean: the checks on data that types do not carry.

An instruction needs none: each operand of `Instr` has exactly the type of its field (R91, R93), so every term of `Instr`
is well formed and has an encoding. What remains is what the spec says of the parameters (R7) and of a program image
(70_reset_and_hazards.md R262). The relations between fields of the state are the invariant of Safety.lean. -/

namespace Sys2Proof

/-- R7: `FB_W` and `FB_H` "must be >= 1". -/
def Config.wellFormed (c : Config) : Bool := decide (1 ≤ c.fbW) && decide (1 ≤ c.fbH)

/-- `PROG_MAX` (R7): the largest program image that fits between 0x200 and 0xFFF. -/
def progMax : Nat := 3584

/-- R262: an image of more than 3584 bytes is refused as a whole. -/
def imageFits (image : List Byte) : Bool := decide (image.length ≤ progMax)

end Sys2Proof
end

