-- ==== Sys2Proof/Decode.lean ====
section
/-! DEFINITION. Decode.lean: the decoder (spec/30_encoding.md R91 to R96, R102, R106, R107), the encoder written from the
same map, and the bridge to spec/opcode_table.json's bit numbering. The opcode numbers are the spec's R106, which marks
them "[from general knowledge, not in source]" (log entry 8). -/

namespace Sys2Proof

/-! ### Fields of a word (R91) -/

/-- `op`, bits 15 to 12. -/
def fieldOp (w : Word) : BitVec 4 := w.extractLsb' 12 4
/-- `X`, bits 11 to 8, as a register index. -/
def fieldX (w : Word) : RegIdx := (w.extractLsb' 8 4).toFin
/-- `Y`, bits 7 to 4, as a register index. -/
def fieldY (w : Word) : RegIdx := (w.extractLsb' 4 4).toFin
/-- `N`, bits 3 to 0, as a secondary opcode. -/
def fieldN (w : Word) : BitVec 4 := w.extractLsb' 0 4
/-- `N`, bits 3 to 0, as a row count (R93). -/
def fieldRows (w : Word) : Fin 16 := (w.extractLsb' 0 4).toFin
/-- `NNN`, bits 11 to 0. -/
def fieldNNN (w : Word) : Addr12 := w.extractLsb' 0 12
/-- `KK`, bits 7 to 0. -/
def fieldKK (w : Word) : Byte := w.extractLsb' 0 8

/-! ### Decoding -/

/-- What a word decodes to. -/
inductive Decoded where
  /-- The instruction. -/
  | instr (i : Instr)
  /-- No handler is defined for the word (R102, R107): the machine raises `DecodeFailure(w)`. -/
  | undefinedWord (w : Word)
  deriving DecidableEq, Repr

/-- What bytes at rising addresses decode to. -/
inductive DecodedBytes where
  /-- The instruction, and the bytes after it. -/
  | instr (i : Instr) (rest : List Byte)
  /-- As `Decoded.undefinedWord`. -/
  | undefinedWord (w : Word)
  /-- Fewer than two bytes were given. The machine's fetch always gives two (R63), so no cycle meets this. -/
  | truncated
  deriving DecidableEq, Repr

/-- Secondary dispatch of op 0x0 on `KK`; `X` is not examined (R95, R96). -/
def decodeOp0 (w : Word) : Decoded :=
  match fieldKK w with
  | 0xE0#8 => .instr .cls
  | 0xEE#8 => .instr .ret
  | _ => .undefinedWord w

/-- Secondary dispatch of op 0x8 on `N` (R95). -/
def decodeOp8 (w : Word) : Decoded :=
  match fieldN w with
  | 0x0#4 => .instr (.ldReg (fieldX w) (fieldY w))
  | 0x1#4 => .instr (.orReg (fieldX w) (fieldY w))
  | 0x2#4 => .instr (.andReg (fieldX w) (fieldY w))
  | 0x3#4 => .instr (.xorReg (fieldX w) (fieldY w))
  | 0x4#4 => .instr (.addReg (fieldX w) (fieldY w))
  | 0x5#4 => .instr (.sub (fieldX w) (fieldY w))
  | 0x6#4 => .instr (.shr (fieldX w) (fieldY w))
  | 0x7#4 => .instr (.subn (fieldX w) (fieldY w))
  | 0xE#4 => .instr (.shl (fieldX w) (fieldY w))
  | _ => .undefinedWord w

/-- Secondary dispatch of op 0xE on `KK` (R95). -/
def decodeOpE (w : Word) : Decoded :=
  match fieldKK w with
  | 0x9E#8 => .instr (.skp (fieldX w))
  | 0xA1#8 => .instr (.sknp (fieldX w))
  | _ => .undefinedWord w

/-- Secondary dispatch of op 0xF on `KK` (R95). -/
def decodeOpF (w : Word) : Decoded :=
  match fieldKK w with
  | 0x07#8 => .instr (.ldVxDt (fieldX w))
  | 0x0A#8 => .instr (.ldVxK (fieldX w))
  | 0x15#8 => .instr (.ldDtVx (fieldX w))
  | 0x18#8 => .instr (.ldStVx (fieldX w))
  | 0x1E#8 => .instr (.addI (fieldX w))
  | 0x29#8 => .instr (.ldF (fieldX w))
  | 0x33#8 => .instr (.ldB (fieldX w))
  | 0x55#8 => .instr (.ldMemVx (fieldX w))
  | 0x65#8 => .instr (.ldVxMem (fieldX w))
  | _ => .undefinedWord w

/-- Decode (R102): primary dispatch on `op` (R94). A pure function of the word. The last arm is op 0xF, the one value
left. -/
def decode (w : Word) : Decoded :=
  match fieldOp w with
  | 0x0#4 => decodeOp0 w
  | 0x1#4 => .instr (.jp (fieldNNN w))
  | 0x2#4 => .instr (.call (fieldNNN w))
  | 0x3#4 => .instr (.seImm (fieldX w) (fieldKK w))
  | 0x4#4 => .instr (.sneImm (fieldX w) (fieldKK w))
  | 0x5#4 => .instr (.seReg (fieldX w) (fieldY w))
  | 0x6#4 => .instr (.ldImm (fieldX w) (fieldKK w))
  | 0x7#4 => .instr (.addImm (fieldX w) (fieldKK w))
  | 0x8#4 => decodeOp8 w
  | 0x9#4 => .instr (.sneReg (fieldX w) (fieldY w))
  | 0xA#4 => .instr (.ldI (fieldNNN w))
  | 0xB#4 => .instr (.jpV0 (fieldNNN w))
  | 0xC#4 => .instr (.rnd (fieldX w) (fieldKK w))
  | 0xD#4 => .instr (.drw (fieldX w) (fieldY w) (fieldRows w))
  | 0xE#4 => decodeOpE w
  | _ => decodeOpF w

/-- The word of two bytes in the order of their addresses, big-endian (R63, R90). -/
def wordOfBytes (hi lo : Byte) : Word := hi ++ lo

/-- Decode from bytes at rising addresses: every instruction is two bytes long (R90, R109); the rest is given back. -/
def decodeBytes : List Byte → DecodedBytes
  | hi :: lo :: rest =>
    match decode (wordOfBytes hi lo) with
    | .instr i => .instr i rest
    | .undefinedWord w => .undefinedWord w
  | _ => .truncated

/-! ### Encoding (R92, R106), 0 in every ignored field (R96) -/

/-- Format `A`. -/
def encodeA (op : BitVec 4) (nnn : Addr12) : Word := op ++ nnn
/-- Formats `XK` and `XS`. -/
def encodeXK (op : BitVec 4) (x : RegIdx) (kk : Byte) : Word := op ++ (BitVec.ofFin x : BitVec 4) ++ kk
/-- Formats `XY`, `XYS` and `XYN`. -/
def encodeXYN (op : BitVec 4) (x y : RegIdx) (n : BitVec 4) : Word :=
  op ++ (BitVec.ofFin x : BitVec 4) ++ (BitVec.ofFin y : BitVec 4) ++ n

/-- The word of an instruction. Every `Instr` is well formed (WellFormed.lean). -/
def encode : Instr → Word
  | .cls => encodeXK 0x0#4 0 0xE0#8
  | .ret => encodeXK 0x0#4 0 0xEE#8
  | .jp nnn => encodeA 0x1#4 nnn
  | .call nnn => encodeA 0x2#4 nnn
  | .seImm x kk => encodeXK 0x3#4 x kk
  | .sneImm x kk => encodeXK 0x4#4 x kk
  | .seReg x y => encodeXYN 0x5#4 x y 0x0#4
  | .ldImm x kk => encodeXK 0x6#4 x kk
  | .addImm x kk => encodeXK 0x7#4 x kk
  | .ldReg x y => encodeXYN 0x8#4 x y 0x0#4
  | .orReg x y => encodeXYN 0x8#4 x y 0x1#4
  | .andReg x y => encodeXYN 0x8#4 x y 0x2#4
  | .xorReg x y => encodeXYN 0x8#4 x y 0x3#4
  | .addReg x y => encodeXYN 0x8#4 x y 0x4#4
  | .sub x y => encodeXYN 0x8#4 x y 0x5#4
  | .shr x y => encodeXYN 0x8#4 x y 0x6#4
  | .subn x y => encodeXYN 0x8#4 x y 0x7#4
  | .shl x y => encodeXYN 0x8#4 x y 0xE#4
  | .sneReg x y => encodeXYN 0x9#4 x y 0x0#4
  | .ldI nnn => encodeA 0xA#4 nnn
  | .jpV0 nnn => encodeA 0xB#4 nnn
  | .rnd x kk => encodeXK 0xC#4 x kk
  | .drw x y n => encodeXYN 0xD#4 x y (BitVec.ofFin n)
  | .skp x => encodeXK 0xE#4 x 0x9E#8
  | .sknp x => encodeXK 0xE#4 x 0xA1#8
  | .ldVxDt x => encodeXK 0xF#4 x 0x07#8
  | .ldVxK x => encodeXK 0xF#4 x 0x0A#8
  | .ldDtVx x => encodeXK 0xF#4 x 0x15#8
  | .ldStVx x => encodeXK 0xF#4 x 0x18#8
  | .addI x => encodeXK 0xF#4 x 0x1E#8
  | .ldF x => encodeXK 0xF#4 x 0x29#8
  | .ldB x => encodeXK 0xF#4 x 0x33#8
  | .ldMemVx x => encodeXK 0xF#4 x 0x55#8
  | .ldVxMem x => encodeXK 0xF#4 x 0x65#8

/-! ### The opcode table's numbering -/

/-- The word that the low `nbits` bits of `w` give, bit 0 the least significant bit of the one 16-bit word; the bits
above `nbits` are 0. -/
def tableWord (nbits w : Nat) : Word := BitVec.ofNat 16 (w % 2 ^ nbits)

/-- The bytes of a word as the Memory Image stores it: bits 15 to 8 at the lower address (R63). -/
def bytesOfWord (w : Word) : List Byte := [w.extractLsb' 8 8, w.extractLsb' 0 8]

/-- The instruction this decoder reads from a word numbered as spec/opcode_table.json numbers it. -/
def decodeTableWord (nbits w : Nat) : Option Instr :=
  match decodeBytes (bytesOfWord (tableWord nbits w)) with
  | .instr i _ => some i
  | .undefinedWord _ => none
  | .truncated => none

end Sys2Proof
end

