-- ==== Sys2Proof/Machine/Defaults.lean ====
section
/-! DEFINITION. Machine/Defaults.lean: the default values of the parameters (spec/00_scope.md R7, spec/10_state.md R31). -/

namespace Sys2Proof.Machine

/-- The default `GLYPH_ROM` (R31, D19): the table of R31, which it marks "[from general knowledge, not in source]"
(log entry 9). Sixteen glyphs of five rows, digit 0 first, top row first. -/
def defaultGlyphRom : Vector Byte 80 := #v[
  0xF0, 0x90, 0x90, 0x90, 0xF0,
  0x20, 0x60, 0x20, 0x20, 0x70,
  0xF0, 0x10, 0xF0, 0x80, 0xF0,
  0xF0, 0x10, 0xF0, 0x10, 0xF0,
  0x90, 0x90, 0xF0, 0x10, 0x10,
  0xF0, 0x80, 0xF0, 0x10, 0xF0,
  0xF0, 0x80, 0xF0, 0x90, 0xF0,
  0xF0, 0x10, 0x20, 0x40, 0x40,
  0xF0, 0x90, 0xF0, 0x90, 0xF0,
  0xF0, 0x90, 0xF0, 0x10, 0xF0,
  0xF0, 0x90, 0xF0, 0x90, 0x90,
  0xE0, 0x90, 0xE0, 0x90, 0xE0,
  0xF0, 0x80, 0x80, 0x80, 0xF0,
  0xE0, 0x90, 0x90, 0x90, 0xE0,
  0xF0, 0x80, 0xF0, 0x80, 0xF0,
  0xF0, 0x80, 0xF0, 0x80, 0x80]

/-- R7's defaults: 64 by 32 pixels (D18), the font of R31 (D19), shifts in place (D6). -/
def defaultConfig : Config where
  fbW := 64
  fbH := 32
  glyphRom := defaultGlyphRom
  shiftSource := .x

end Sys2Proof.Machine
end

