-- ==== Sys2Proof/Machine/State.lean ====
section
/-! DEFINITION. Machine/State.lean: the state of the core (spec/10_state.md), the reasons a step can stop, and reset. -/

namespace Sys2Proof.Machine

/-- `ENGINE` (R35). -/
inductive Engine where
  /-- Cycles execute instructions. -/
  | running
  /-- Parked in the blocking key load FX0A (R193, R194). -/
  | awaitingKey
  /-- Entered by any fault, left only by reset (R223). -/
  | halted
  deriving DecidableEq, Repr

/-- The seven faults of the machine (60_exceptions.md R221). Raising one is a next state (R222), never a stop of the
model: see `enterFault` in Machine/Ops.lean. -/
inductive FaultCause where
  /-- The fetched word matches no instruction. -/
  | decodeFailure
  /-- An address above 0xFFF would be accessed. -/
  | addressOutOfRange
  /-- 2NNN with sixteen entries on the stack. -/
  | stackOverflow
  /-- 00EE with an empty stack. -/
  | stackUnderflow
  /-- Fetch at an odd `pc`. -/
  | misalignedFetch
  /-- A store to 0x000..0x04F. -/
  | glyphTableWrite
  /-- EX9E or EXA1 with `V[X]` above 15. -/
  | keyIndexOutOfRange
  deriving DecidableEq, Repr

/-- What the host drives on the `key` and `rnd` ports for one cycle (R38): bit `k` of `key` is `KEY[k]`. -/
structure HostInput where
  key : BitVec 16
  rnd : Byte
  deriving DecidableEq, Repr

/-- The state. Names are R9's; `mem` lists the bytes that differ from their reset contents, addresses rising; `fb`
lists the lit pixels, pixel `(x, y)` as `y * FB_W + x`, rising (log entries 3 and 4). -/
structure State where
  /-- `V[0]` to `V[15]` (R20); `V[15]` is `VF` (R21). -/
  v : Vector Byte 16
  /-- `I` (R27). -/
  i : Word
  /-- `pc` (R23). -/
  pc : Word
  /-- `SP`, the number of entries pushed and not yet popped, 0 to 16 (R29). -/
  sp : BitVec 5
  /-- `STACK[0]` to `STACK[15]` (R28). -/
  stack : Vector Word 16
  /-- `DT` (R30). -/
  dt : Byte
  /-- `ST` (R30). -/
  st : Byte
  /-- `MEM[0x000]` to `MEM[0xFFF]` (R31, R32), read with `readByte` of Machine/Ops.lean. -/
  mem : List Host.Cell
  /-- `FB[y][x]` (R34), read with `pixel` of Machine/Ops.lean. -/
  fb : List Nat
  /-- `ENGINE` (R35). -/
  engine : Engine
  /-- `FAULT_CODE` (R36). -/
  faultCode : BitVec 4
  /-- `FAULT_INFO` (R36). -/
  faultInfo : Word
  /-- The parameters (R7), fixed for the machine. The model's own field (log entry 2). -/
  cfg : Config
  /-- The samples the host has settled for the coming cycles, next first; when empty the sample is a free value. The
  model's own field (log entry 1). -/
  inputs : List HostInput
  /-- How many samples have been taken; it names the next free sample. The model's own field (log entry 1). -/
  draws : Nat
  deriving DecidableEq, Repr

/-- Why the model stops with a fault of its own. None of the spec's faults is here: those are next states (R222). -/
inductive Fault where
  /-- Raised by the meanings of 2NNN (CALL) and 00EE (RET) in a state whose `SP` is 17 to 31. Safe: "Values 17 to 31 are
  never produced" (10_state.md R29), no step reaches such a state from one where `SP` is at most 16, and R29 gives a
  push or pop there no effect (log entry 5). -/
  | stackPointerInvalid
  deriving DecidableEq, Repr

/-- Why an operation has no move. -/
inductive Refusal where
  /-- An instruction without a meaning. Raised by nothing in this model: every arm of `exec` has its meaning. Safe. -/
  | notModelled (mnemonic : String)
  /-- Raised by the host's operation `hostLoad` for an image of more than 3584 bytes: "the load is refused as a whole:
  nothing is written, and the engine is not to be started" (R262). Safe. -/
  | imageTooLarge
  /-- Raised by the host's operation `hostLoad` outside the freshly reset machine, and by `loadPort` where a field other
  than memory is not as reset leaves it. A load is "legal only between reset and the first cycle" (R38); that it is refused
  elsewhere is the model's choice (log entry 15). Safe. -/
  | loadOutsideReset
  /-- Raised by the host's operation `loadPort` for an address below 0x200: "The load port cannot address the glyph table
  or anything below 0x200" (R262). Safe. -/
  | loadBelowProgram
  deriving DecidableEq, Repr

/-- What `exec` and `step` answer. -/
abbrev Result := Host.Outcome State Fault Refusal

/-- The state after reset of a machine with parameters `c` (R40, R260): nothing listed in memory, so that every byte
reads as its reset contents, and no pixel lit. -/
def State.resetWith (c : Config) : State where
  v := Vector.replicate 16 0
  i := 0
  pc := 0x200
  sp := 0
  stack := Vector.replicate 16 0
  dt := 0
  st := 0
  mem := []
  fb := []
  engine := .running
  faultCode := 0
  faultInfo := 0
  cfg := c
  inputs := []
  draws := 0

/-- The machine right after reset, with R7's default parameters. -/
def State.reset : State := State.resetWith defaultConfig

end Sys2Proof.Machine
end

