-- ==== Sys2Proof/Machine/Ops.lean ====
section
/-! DEFINITION. Machine/Ops.lean: the named operations over memory, registers, stack, framebuffer, inputs and timers;
fault entry; fetch; the phases of a cycle around execution; the host's operations. -/

namespace Sys2Proof.Machine

/-! ### The Memory Image (20_memory.md) -/

/-- `MEM_SIZE` (R7). -/
abbrev memSize : Nat := 4096

/-- `GLYPH_END + 1` (R7): the glyph table is 0x000 to 0x04F. -/
abbrev glyphSize : Nat := 80

/-- `PROG_BASE` (R7). -/
abbrev progBase : Nat := 0x200

/-- What an address no cell lists reads as: its reset contents (R31, R32, R40). -/
def unlistedByte (rom : Vector Byte 80) (a : Nat) : Byte := rom[a]?.getD 0

/-- The listed value of an address, if any. -/
def lookupCell (a : Nat) : List Host.Cell → Option Byte
  | [] => none
  | c :: cs => if c.1 = a then some c.2 else lookupCell a cs

/-- Take an address out of the list. -/
def eraseCell (a : Nat) (m : List Host.Cell) : List Host.Cell := m.filter (fun c => c.1 != a)

/-- Put a cell before the first one with a higher address. -/
def insertCell (a : Nat) (b : Byte) : List Host.Cell → List Host.Cell
  | [] => [(a, b)]
  | c :: cs => if a < c.1 then (a, b) :: c :: cs else c :: insertCell a b cs

/-- The byte at an address of a memory with glyph table `rom`. -/
def Memory.read (rom : Vector Byte 80) (m : List Host.Cell) (a : Nat) : Byte :=
  (lookupCell a m).getD (unlistedByte rom a)

/-- Write a byte, keeping the canonical form: a byte equal to what the address reads as unlisted is not listed. -/
def Memory.write (rom : Vector Byte 80) (m : List Host.Cell) (a : Nat) (b : Byte) : List Host.Cell :=
  if b = unlistedByte rom a then eraseCell a m else insertCell a b (eraseCell a m)

/-- The addresses rise strictly. -/
def cellsRising : List Host.Cell → Bool
  | [] => true
  | [_] => true
  | c :: d :: cs => decide (c.1 < d.1) && cellsRising (d :: cs)

/-- The canonical form: rising, inside the address space (R61), and no cell that says what is unlisted anyway. -/
def Memory.wf (rom : Vector Byte 80) (m : List Host.Cell) : Bool :=
  cellsRising m && m.all (fun c => decide (c.1 < memSize) && c.2 != unlistedByte rom c.1)

/-- `MEM[a]` (R62, past its check). -/
def readByte (s : State) (a : Nat) : Byte := Memory.read s.cfg.glyphRom s.mem a

/-- `MEM[a] <- b` (R64, past its checks). -/
def writeByte (a : Nat) (b : Byte) (s : State) : State := { s with mem := Memory.write s.cfg.glyphRom s.mem a b }

/-- Bytes at rising addresses from `a`. -/
def storeBytes (a : Nat) : List Byte → State → State
  | [], s => s
  | b :: bs, s => storeBytes (a + 1) bs (writeByte a b s)

/-- The `n` bytes at rising addresses from `a`. -/
def readBytes (s : State) (a n : Nat) : List Byte := (List.range n).map (fun k => readByte s (a + k))

/-- The check of a data read (R62): the address is an unbounded natural. -/
def readFault (a : Nat) : Option FaultCause :=
  if 0xFFF < a then some .addressOutOfRange else none

/-- The checks of a data write, in R64's order. -/
def writeFault (a : Nat) : Option FaultCause :=
  if 0xFFF < a then some .addressOutOfRange else if a ≤ 0x04F then some .glyphTableWrite else none

/-- R69: check the `n` addresses from `a` in rising order; the first that fails, with its cause. -/
def firstFailing (check : Nat → Option FaultCause) (a n : Nat) : Option (FaultCause × Nat) :=
  (List.range n).findSome? (fun k => (check (a + k)).map (fun c => (c, a + k)))

/-! ### Registers and control flow -/

/-- `V[x] <- b`. -/
def writeReg (x : RegIdx) (b : Byte) (s : State) : State := { s with v := s.v.set x b }

/-- The two writes of a flag-setting instruction, result first and flag second (R141): with `x = 15` the flag stays. -/
def writeResultAndFlag (x : RegIdx) (result flag : Byte) (s : State) : State :=
  writeReg flagReg flag (writeReg x result s)

/-- The whole register file (FX65, whose loads come from a memory it does not change). -/
def writeRegs (v : Vector Byte 16) (s : State) : State := { s with v := v }

/-- `DT <- b`. -/
def writeDt (b : Byte) (s : State) : State := { s with dt := b }

/-- `ST <- b`. -/
def writeSt (b : Byte) (s : State) : State := { s with st := b }

/-- `I <- a`. -/
def writeI (a : Word) (s : State) : State := { s with i := a }

/-- What the sequencer does after an instruction that answered `Next` (R104, R100 phase 4). -/
def advance (s : State) : State := { s with pc := s.pc + 2, engine := .running }

/-- An instruction that wrote `pc` itself: `Jumped`, no advance (R103, R100 phase 4). -/
def jump (target : Word) (s : State) : State := { s with pc := target, engine := .running }

/-- A skip adds one instruction width when its test holds, and the advance follows (R103). -/
def skipIf (test : Bool) (s : State) : State :=
  advance (if test then { s with pc := s.pc + 2 } else s)

/-- FX0A with no key pressed: `Parked` (R100, R193). -/
def park (s : State) : State := { s with engine := .awaitingKey }

/-! ### The call-return stack (R29) -/

/-- Push: none where `SP` is 16 or more. -/
def pushReturn (a : Word) (s : State) : Option State :=
  if h : s.sp.toNat < 16 then some { s with stack := s.stack.set s.sp.toNat a, sp := s.sp + 1 } else none

/-- Pop: the popped value and the state after; the slot keeps its content (D25). None where `SP` is 17 or more; the
caller has excluded `SP = 0`. -/
def popReturn (s : State) : Option (Word × State) :=
  match s.stack[s.sp.toNat - 1]? with
  | some a => some (a, { s with sp := s.sp - 1 })
  | none => none

/-! ### Fault entry (60_exceptions.md R221, R222) -/

/-- `FAULT_CODE` of a fault (R221). -/
def faultCodeOf : FaultCause → BitVec 4
  | .decodeFailure => 1
  | .addressOutOfRange => 2
  | .stackOverflow => 3
  | .stackUnderflow => 4
  | .misalignedFetch => 5
  | .glyphTableWrite => 6
  | .keyIndexOutOfRange => 7

/-- Fault entry (R222), applied to the state at the start of the cycle: nothing of the instruction is written, `pc`
stays, and the fault is recorded. There is no return from a fault (R226). -/
def enterFault (c : FaultCause) (info : Word) (s : State) : State :=
  { s with engine := .halted, faultCode := faultCodeOf c, faultInfo := info }

/-- `raise <Fault>(info)` (R10): the machine goes on to the halted state. -/
def raise (c : FaultCause) (info : Word) (s : State) : Result := .next (enterFault c info s)

/-! ### The framebuffer (46_display.md, R77) -/

/-- Where pixel `(x, y)` stands, row by row (D18). -/
def pixelIndex (c : Config) (x y : Nat) : Nat := y * c.fbW + x

/-- `FB[y][x]`. -/
def pixel (s : State) (x y : Nat) : Bool := s.fb.contains (pixelIndex s.cfg x y)

/-- Put a pixel before the first higher one. -/
def insertDot (d : Nat) : List Nat → List Nat
  | [] => [d]
  | e :: es => if d < e then d :: e :: es else e :: insertDot d es

/-- Exclusive-OR one pixel with 1. -/
def toggleDot (d : Nat) (fb : List Nat) : List Nat :=
  if fb.contains d then fb.filter (fun e => e != d) else insertDot d fb

/-- R201's inner statements for the sprite bits that are 1, in order: a bit of 0 changes nothing and cannot collide. The
collision is judged by the pixel as it stands, earlier writes of the same draw included. -/
def xorDots : List Nat → List Nat × Bool → List Nat × Bool
  | [], acc => acc
  | d :: ds, acc => xorDots ds (toggleDot d acc.1, acc.2 || acc.1.contains d)

/-- The pixels that the 1 bits of sprite row `b` reach on framebuffer row `py`, columns left to right (R200, R201). -/
def rowDots (c : Config) (x0 py : Nat) (b : Byte) : List Nat :=
  ((List.range 8).filter (fun col => b.getLsbD (7 - col))).map (fun col => pixelIndex c ((x0 + col) % c.fbW) py)

/-- The pixels that the 1 bits of a sprite reach, rows top to bottom; `y` is the raw coordinate of the first row. -/
def spriteDots (c : Config) (x0 : Nat) : Nat → List Byte → List Nat
  | _, [] => []
  | y, b :: bs => rowDots c x0 (y % c.fbH) b ++ spriteDots c x0 (y + 1) bs

/-- The form of a framebuffer list: rising, every pixel inside `FB_W` by `FB_H`. -/
def dotsRising : List Nat → Bool
  | [] => true
  | [_] => true
  | d :: e :: es => decide (d < e) && dotsRising (e :: es)

/-- The canonical form of the framebuffer. -/
def Framebuffer.wf (c : Config) (fb : List Nat) : Bool :=
  dotsRising fb && fb.all (fun d => decide (d < c.fbW * c.fbH))

/-- The whole framebuffer. -/
def writeScreen (fb : List Nat) (s : State) : State := { s with fb := fb }

/-- `FB[y][x] <- 0` for every pixel (R202). -/
def clearScreen (s : State) : State := writeScreen [] s

/-! ### Inputs of a cycle (R38, R161, R243) -/

/-- The sample of this cycle: what the host has settled, else a free value (log entry 1). -/
def sample (s : State) : HostInput :=
  match s.inputs with
  | input :: _ => input
  | [] => { key := Config.freeKey s.draws, rnd := Config.freeRnd s.draws }

/-- `KEY` of this cycle. -/
def keys (s : State) : BitVec 16 := (sample s).key

/-- `RND` of this cycle. -/
def randomByte (s : State) : Byte := (sample s).rnd

/-- The sample is used up: the next cycle has another, whatever this one was. -/
def consumeInput (s : State) : State := { s with inputs := s.inputs.tail, draws := s.draws + 1 }

/-- `the least k with KEY[k] = 1` (R193). -/
def lowestKey (key : BitVec 16) : Option Nat := (List.range 16).find? (fun k => key.getLsbD k)

/-! ### Timers (R240) -/

/-- One timer unit: towards zero, never below. -/
def countDown (t : Byte) : Byte := if t = 0 then 0 else t - 1

/-- The timer phase. -/
def tickTimers (s : State) : State := { s with dt := countDown s.dt, st := countDown s.st }

/-! ### The cycle around execution (30_encoding.md R100, R101) -/

/-- Fetch (R63, R101): the range check, then the alignment check, then the two bytes, the lower address first. -/
def fetchBytes (s : State) : Except (FaultCause × Word) (List Byte) :=
  if 0xFFF < s.pc.toNat + 1 then
    .error (.addressOutOfRange, if 0xFFF < s.pc.toNat then s.pc else s.pc + 1)
  else if s.pc.getLsbD 0 then .error (.misalignedFetch, s.pc)
  else .ok (readBytes s s.pc.toNat 2)

/-- The end of a cycle: the timer phase where the instruction completed, not where it parked or faulted (R100, R240);
then the cycle's sample is gone. -/
def endCycle (s : State) : State :=
  consumeInput (if s.engine = .running then tickTimers s else s)

/-- `endCycle` on what execution answered. -/
def finishCycle : Result → Result
  | .next s => .next (endCycle s)
  | .fault f => .fault f
  | .refused r => .refused r

/-- One cycle (R100), given what executes an instruction. In `Halted` nothing changes at all (R223). A decode failure
records the word (R221); fetch always gives two bytes, so the arm for too few is never taken. -/
def cycleWith (execute : Instr → State → Result) (s : State) : Result :=
  if s.engine = .halted then .next s
  else
    match fetchBytes s with
    | .error (c, info) => finishCycle (raise c info s)
    | .ok bytes =>
      match decodeBytes bytes with
      | .undefinedWord w => finishCycle (raise .decodeFailure w s)
      | .truncated => finishCycle (raise .decodeFailure 0 s)
      | .instr ins _ => finishCycle (execute ins s)

/-- The two bytes of a table word placed where the next fetch reads them. -/
def placeFetchWord (s : State) (nbits w : Nat) : State :=
  storeBytes s.pc.toNat (bytesOfWord (tableWord nbits w)) s

/-! ### The host's operations and ports (R38, R260, R262, R274) -/

/-- `rst` (R260): in any engine state, the state after reset of the same machine. The samples are the host's and go on. -/
def hostReset (s : State) : State := { State.resetWith s.cfg with inputs := s.inputs, draws := s.draws }

/-- Between reset and the first cycle every field but memory is as reset leaves it (log entry 15). -/
def beforeFirstCycle (s : State) : Bool := decide ({ s with mem := [] } = hostReset s)

/-- One write through the load port (R38, R262): `MEM[load_addr] <- load_data`. -/
def loadPort (a : Addr12) (b : Byte) (s : State) : Result :=
  if beforeFirstCycle s = false then .refused .loadOutsideReset
  else if a.toNat < progBase then .refused .loadBelowProgram
  else .next (writeByte a.toNat b s)

/-- Program load (R262): the whole image verbatim from 0x200, once, in the freshly reset machine; an image that does not
fit is refused whole. -/
def hostLoad (image : List Byte) (s : State) : Result :=
  if s ≠ hostReset s then .refused .loadOutsideReset
  else if imageFits image then .next (storeBytes progBase image s)
  else .refused .imageTooLarge

/-- The `snd` port (R38, R242). -/
def sndPort (s : State) : Bool := s.st != 0

end Sys2Proof.Machine
end

