-- ==== Sys2Proof/Machine/Operands.lean ====
section
/-! DEFINITION. Machine/Operands.lean: every operand form (spec/30_encoding.md R93, spec/20_memory.md R66). -/

namespace Sys2Proof.Machine

/-- `V[x]`. -/
def reg (s : State) (x : RegIdx) : Byte := s.v[x]

/-- `zext_16(NNN)`. -/
def addrImm (nnn : Addr12) : Word := nnn.setWidth 16

/-- BNNN's target: `(zext_16(NNN) + zext_16(V[0])) mod 65536` (R121). -/
def indexedTarget (nnn : Addr12) (s : State) : Word := nnn.setWidth 16 + (reg s 0).setWidth 16

/-- The first effective address of a data access: `I` as an unbounded natural (R66). -/
def baseAddr (s : State) : Nat := s.i.toNat

/-- The operand of 8XY6 and 8XYE: `V[X]`, or `V[Y]` when `SHIFT_SOURCE = Y` (R150, D6). -/
def shiftOperand (s : State) (x y : RegIdx) : Byte :=
  match s.cfg.shiftSource with
  | .x => reg s x
  | .y => reg s y

/-- FX29: `zext_16((V[X] & 0x0F) * 5)` (R167). -/
def glyphAddr (b : Byte) : Word := (b &&& 0x0F).setWidth 16 * 5

/-- FX33: hundreds, tens, units (R168). -/
def bcdDigits (b : Byte) : List Byte :=
  [BitVec.ofNat 8 (b.toNat / 100), BitVec.ofNat 8 (b.toNat / 10 % 10), BitVec.ofNat 8 (b.toNat % 10)]

/-- How many registers FX55 and FX65 move: `X + 1` (R169, R170). -/
def regCount (x : RegIdx) : Nat := x.val + 1

/-- FX55: `V[0]` to `V[X]` (R169). -/
def regsUpTo (s : State) (x : RegIdx) : List Byte := s.v.toList.take (regCount x)

/-- FX65: the register file with `V[0]` to `V[X]` read from memory and the others kept (R170). -/
def regsLoaded (s : State) (x : RegIdx) : Vector Byte 16 :=
  Vector.ofFn (fun r : RegIdx => if r ≤ x then readByte s (baseAddr s + r.val) else reg s r)

/-- The key that `V[X]` names, none above 15 (R192). -/
def keyPressed? (s : State) (x : RegIdx) : Option Bool :=
  if 15 < (reg s x).toNat then none else some ((keys s).getLsbD (reg s x).toNat)

/-- DXYN: the pixels its 1 bits reach (R201), raw coordinates from `V[X]` and `V[Y]`. -/
def drawDots (s : State) (x y : RegIdx) (n : Fin 16) : List Nat :=
  spriteDots s.cfg (reg s x).toNat (reg s y).toNat (readBytes s (baseAddr s) n.val)

end Sys2Proof.Machine
end

