-- ==== Sys2Proof/Machine/Display.lean ====
section
/-! DEFINITION. Machine/Display.lean: the meanings of spec/46_display.md. -/

namespace Sys2Proof.Machine

/-- 00E0 `CLS` (R202). -/
def execCls (s : State) : Result := .next (advance (clearScreen s))

/-- The screen and the collision after drawing (R201). -/
def drawn (x y : RegIdx) (n : Fin 16) (s : State) : List Nat × Bool := xorDots (drawDots s x y n) (s.fb, false)

/-- DXYN `DRW VX, VY, N` (R201): every row's address is checked first; `VF` is written last, also with 0. -/
def execDrw (x y : RegIdx) (n : Fin 16) (s : State) : Result :=
  match firstFailing readFault (baseAddr s) n.val with
  | some (c, a) => raise c (BitVec.ofNat 16 a) s
  | none =>
    .next (advance (writeReg flagReg (collisionFlag (drawn x y n s).2) (writeScreen (drawn x y n s).1 s)))

end Sys2Proof.Machine
end

