-- ==== Sys2Proof/Machine/FlowControl.lean ====
section
/-! DEFINITION. Machine/FlowControl.lean: the meanings of spec/40_flow_control.md. -/

namespace Sys2Proof.Machine

/-- 1NNN `JP NNN` (R120). -/
def execJp (nnn : Addr12) (s : State) : Result := .next (jump (addrImm nnn) s)

/-- BNNN `JP V0, NNN` (R121). -/
def execJpV0 (nnn : Addr12) (s : State) : Result := .next (jump (indexedTarget nnn s) s)

/-- 2NNN `CALL NNN` (R122): the pushed value is the address of the call itself. -/
def execCall (nnn : Addr12) (s : State) : Result :=
  if s.sp = 16 then raise .stackOverflow s.pc s
  else
    match pushReturn s.pc s with
    | some s' => .next (jump (addrImm nnn) s')
    | none => .fault .stackPointerInvalid

/-- 00EE `RET` (R123): on at the popped value plus 2. -/
def execRet (s : State) : Result :=
  if s.sp = 0 then raise .stackUnderflow s.pc s
  else
    match popReturn s with
    | some (a, s') => .next (jump (a + 2) s')
    | none => .fault .stackPointerInvalid

/-- 3XKK `SE VX, KK` (R124). -/
def execSeImm (x : RegIdx) (kk : Byte) (s : State) : Result := .next (skipIf (reg s x == kk) s)

/-- 4XKK `SNE VX, KK` (R125). -/
def execSneImm (x : RegIdx) (kk : Byte) (s : State) : Result := .next (skipIf (reg s x != kk) s)

/-- 5XY_ `SE VX, VY` (R126). -/
def execSeReg (x y : RegIdx) (s : State) : Result := .next (skipIf (reg s x == reg s y) s)

/-- 9XY_ `SNE VX, VY` (R127). -/
def execSneReg (x y : RegIdx) (s : State) : Result := .next (skipIf (reg s x != reg s y) s)

end Sys2Proof.Machine
end

