-- ==== Sys2Proof/Machine/IndexedAddressing.lean ====
section
/-! DEFINITION. Machine/IndexedAddressing.lean: the meanings of spec/43_indexed_addressing.md. An access checks every
address before it does anything (spec/20_memory.md R69); `I` is never changed by an access (D8). -/

namespace Sys2Proof.Machine

/-- The store of FX33 and FX55: `bytes` from `I` up, or the fault of the lowest failing address (R64, R69). -/
def storeAtI (bytes : List Byte) (s : State) : Result :=
  match firstFailing writeFault (baseAddr s) bytes.length with
  | some (c, a) => raise c (BitVec.ofNat 16 a) s
  | none => .next (advance (storeBytes (baseAddr s) bytes s))

/-- ANNN `LD I, NNN` (R165). -/
def execLdI (nnn : Addr12) (s : State) : Result := .next (advance (writeI (addrImm nnn) s))

/-- FX1E `ADD I, VX` (R166): no flag, no bound. -/
def execAddI (x : RegIdx) (s : State) : Result := .next (advance (writeI (s.i + (reg s x).setWidth 16) s))

/-- FX29 `LD F, VX` (R167). -/
def execLdF (x : RegIdx) (s : State) : Result := .next (advance (writeI (glyphAddr (reg s x)) s))

/-- FX33 `LD B, VX` (R168). -/
def execLdB (x : RegIdx) (s : State) : Result := storeAtI (bcdDigits (reg s x)) s

/-- FX55 `LD [I], VX` (R169). -/
def execLdMemVx (x : RegIdx) (s : State) : Result := storeAtI (regsUpTo s x) s

/-- FX65 `LD VX, [I]` (R170). -/
def execLdVxMem (x : RegIdx) (s : State) : Result :=
  match firstFailing readFault (baseAddr s) (regCount x) with
  | some (c, a) => raise c (BitVec.ofNat 16 a) s
  | none => .next (advance (writeRegs (regsLoaded s x) s))

end Sys2Proof.Machine
end

