-- ==== Sys2Proof/Machine/Input.lean ====
section
/-! DEFINITION. Machine/Input.lean: the meanings of spec/45_input.md. `KEY` is the cycle's one sample (R243). -/

namespace Sys2Proof.Machine

/-- EX9E `SKP VX` (R190, R192). -/
def execSkp (x : RegIdx) (s : State) : Result :=
  match keyPressed? s x with
  | none => raise .keyIndexOutOfRange ((reg s x).setWidth 16) s
  | some pressed => .next (skipIf pressed s)

/-- EXA1 `SKNP VX` (R191, R192). -/
def execSknp (x : RegIdx) (s : State) : Result :=
  match keyPressed? s x with
  | none => raise .keyIndexOutOfRange ((reg s x).setWidth 16) s
  | some pressed => .next (skipIf (!pressed) s)

/-- FX0A's effect (R193): parked while no key is pressed, else the lowest pressed key (D16). -/
def keyLoad (x : RegIdx) (s : State) : State :=
  match lowestKey (keys s) with
  | none => park s
  | some k => advance (writeReg x (BitVec.ofNat 8 k) s)

/-- FX0A `LD VX, K` (R193). -/
def execLdVxK (x : RegIdx) (s : State) : Result := .next (keyLoad x s)

end Sys2Proof.Machine
end

