-- ==== Sys2Proof/Machine/Random.lean ====
section
/-! DEFINITION. Machine/Random.lean: the meaning of spec/42_random.md. -/

namespace Sys2Proof.Machine

/-- CXKK `RND VX, KK` (R160): `RND` is the cycle's sample (R161). -/
def execRnd (x : RegIdx) (kk : Byte) (s : State) : Result := .next (advance (writeReg x (randomByte s &&& kk) s))

end Sys2Proof.Machine
end

