-- ==== Sys2Proof/Machine/RegisterAlu.lean ====
section
/-! DEFINITION. Machine/RegisterAlu.lean: the meanings of spec/41_register_alu.md. Operands are read before either write
(R140); none can fault. -/

namespace Sys2Proof.Machine

/-- 6XKK `LD VX, KK` (R142). -/
def execLdImm (x : RegIdx) (kk : Byte) (s : State) : Result := .next (advance (writeReg x kk s))

/-- 7XKK `ADD VX, KK` (R143): no flag. -/
def execAddImm (x : RegIdx) (kk : Byte) (s : State) : Result := .next (advance (writeReg x (reg s x + kk) s))

/-- 8XY0 `LD VX, VY` (R144). -/
def execLdReg (x y : RegIdx) (s : State) : Result := .next (advance (writeReg x (reg s y) s))

/-- 8XY1 `OR VX, VY` (R145): no flag. -/
def execOrReg (x y : RegIdx) (s : State) : Result := .next (advance (writeReg x (reg s x ||| reg s y) s))

/-- 8XY2 `AND VX, VY` (R146): no flag. -/
def execAndReg (x y : RegIdx) (s : State) : Result := .next (advance (writeReg x (reg s x &&& reg s y) s))

/-- 8XY3 `XOR VX, VY` (R147): no flag. -/
def execXorReg (x y : RegIdx) (s : State) : Result := .next (advance (writeReg x (reg s x ^^^ reg s y) s))

/-- 8XY4 `ADD VX, VY` (R148). -/
def execAddReg (x y : RegIdx) (s : State) : Result :=
  .next (advance (writeResultAndFlag x (reg s x + reg s y) (carryFlag (reg s x) (reg s y)) s))

/-- 8XY5 `SUB VX, VY` (R149). -/
def execSub (x y : RegIdx) (s : State) : Result :=
  .next (advance (writeResultAndFlag x (reg s x - reg s y) (greaterFlag (reg s x) (reg s y)) s))

/-- 8XY6 `SHR VX {, VY}` (R150). -/
def execShr (x y : RegIdx) (s : State) : Result :=
  .next (advance (writeResultAndFlag x (shiftOperand s x y >>> 1) (shiftedOutRight (shiftOperand s x y)) s))

/-- 8XY7 `SUBN VX, VY` (R151). -/
def execSubn (x y : RegIdx) (s : State) : Result :=
  .next (advance (writeResultAndFlag x (reg s y - reg s x) (greaterFlag (reg s y) (reg s x)) s))

/-- 8XYE `SHL VX {, VY}` (R152). -/
def execShl (x y : RegIdx) (s : State) : Result :=
  .next (advance (writeResultAndFlag x (shiftOperand s x y <<< 1) (shiftedOutLeft (shiftOperand s x y)) s))

end Sys2Proof.Machine
end

