-- ==== Sys2Proof/Machine/Timers.lean ====
section
/-! DEFINITION. Machine/Timers.lean: the meanings of spec/44_timers.md. The cycle's timer phase comes after them (R183):
`endCycle` of Machine/Ops.lean. -/

namespace Sys2Proof.Machine

/-- FX07 `LD VX, DT` (R180): the timer before this cycle's decrement. -/
def execLdVxDt (x : RegIdx) (s : State) : Result := .next (advance (writeReg x s.dt s))

/-- FX15 `LD DT, VX` (R181). -/
def execLdDtVx (x : RegIdx) (s : State) : Result := .next (advance (writeDt (reg s x) s))

/-- FX18 `LD ST, VX` (R182). -/
def execLdStVx (x : RegIdx) (s : State) : Result := .next (advance (writeSt (reg s x) s))

end Sys2Proof.Machine
end

