-- ==== Sys2Proof/Machine/Step.lean ====
section
/-! DEFINITION. Machine/Step.lean: the step, one cycle of spec/30_encoding.md R100. -/

namespace Sys2Proof.Machine

/-- One cycle (R100). -/
def step (s : State) : Host.Outcome State Fault Refusal := cycleWith exec s

/-- `s` with the word numbered as spec/opcode_table.json numbers it stored where the next fetch reads: at `pc`, big-endian. -/
def State.withFetchWord (s : State) (nbits w : Nat) : State := placeFetchWord s nbits w

end Sys2Proof.Machine
end

