-- ==== Sys2Proof/Safety.lean ====
section
/-! DEFINITION. Safety.lean: what counts as a safe state, and the words in which statements say what an instruction leaves
unchanged. -/

namespace Sys2Proof.Machine

/-! ### The invariant -/

/-- The fault registers "hold 0 while no fault has occurred" (R36), and in `Halted` they hold a fault of R221. -/
def FaultRegsFit (s : State) : Prop :=
  if s.engine = .halted then 1 ≤ s.faultCode.toNat ∧ s.faultCode.toNat ≤ 7 else s.faultCode = 0 ∧ s.faultInfo = 0

/-- "The glyph table is immutable for the lifetime of the machine" (R31, R64). -/
def GlyphTableIntact (s : State) : Prop := ∀ a : Fin 80, readByte s a.val = s.cfg.glyphRom[a]

/-- What every reachable state satisfies: the parameters are legal (R7), memory and framebuffer are in their canonical
form (log entries 3 and 4), the glyph table is what it was (R31), `SP` is 0 to 16 (R29), the fault registers fit (R36). -/
structure State.Inv (s : State) : Prop where
  config : s.cfg.wellFormed = true
  memory : Memory.wf s.cfg.glyphRom s.mem = true
  glyphs : GlyphTableIntact s
  stackPointer : s.sp.toNat ≤ 16
  screen : Framebuffer.wf s.cfg s.fb = true
  faultRegs : FaultRegsFit s

/-- "A halted state is never a successful end of a run: a model counts it as "gone wrong"" (R223). -/
def GoneWrong (s : State) : Prop := s.engine = .halted

/-! ### What is unchanged from `s` to `t` -/

/-- Every general register but those listed. -/
def SameRegsBut (written : List RegIdx) (s t : State) : Prop := ∀ r : RegIdx, r ∉ written → reg t r = reg s r

/-- Every byte of memory, read one byte at a time. -/
def SameMemory (s t : State) : Prop := ∀ a : Nat, readByte t a = readByte s a

/-- Every byte of memory outside the `n` bytes from `a`. -/
def SameMemoryOutside (a n : Nat) (s t : State) : Prop :=
  ∀ b : Nat, b < a ∨ a + n ≤ b → readByte t b = readByte s b

/-- Every pixel. -/
def SameScreen (s t : State) : Prop := ∀ x y : Nat, pixel t x y = pixel s x y

/-- `SP` and every stack entry. -/
def SameStack (s t : State) : Prop := t.sp = s.sp ∧ ∀ j : Fin 16, t.stack[j] = s.stack[j]

/-- Both timers. -/
def SameTimers (s t : State) : Prop := t.dt = s.dt ∧ t.st = s.st

/-- The fault registers. -/
def SameFaultRegs (s t : State) : Prop := t.faultCode = s.faultCode ∧ t.faultInfo = s.faultInfo

/-- The samples are untouched: execution reads the cycle's sample and uses none up. -/
def SameSamples (s t : State) : Prop := t.inputs = s.inputs ∧ t.draws = s.draws

/-- One sample was taken: what a cycle does beside its core effects (log entry 1). -/
def SampleTaken (s t : State) : Prop := t.inputs = s.inputs.tail ∧ t.draws = s.draws + 1

/-- Memory, screen, stack, fault registers, parameters and samples. -/
def SameStores (s t : State) : Prop :=
  SameMemory s t ∧ SameScreen s t ∧ SameStack s t ∧ SameFaultRegs s t ∧ t.cfg = s.cfg ∧ SameSamples s t

/-- The frame of an instruction that writes, beside `pc`, at most the general registers listed; `ENGINE` is `Running`
(R100). -/
def RegisterFrame (written : List RegIdx) (s t : State) : Prop :=
  SameRegsBut written s t ∧ t.i = s.i ∧ SameTimers s t ∧ SameStores s t ∧ t.engine = .running

/-- Nothing of the core changed but `ENGINE` and, in a fault, the fault registers. -/
def SameCore (s t : State) : Prop :=
  SameRegsBut [] s t ∧ t.i = s.i ∧ t.pc = s.pc ∧ SameTimers s t ∧ SameMemory s t ∧ SameScreen s t ∧
  SameStack s t ∧ t.cfg = s.cfg

/-- The fault `c` with `info` was entered from `s` and nothing else happened to the core (R221, R222). -/
def Faulted (c : FaultCause) (info : Word) (s t : State) : Prop :=
  t.engine = .halted ∧ t.faultCode = faultCodeOf c ∧ t.faultInfo = info ∧ SameCore s t

/-! ### Words of the statements -/

/-- The 16-bit word `{MEM[pc], MEM[pc + 1]}` (R63). -/
def wordAtPc (s : State) : Word := readByte s s.pc.toNat ++ readByte s (s.pc.toNat + 1)

/-- A cycle from `s` fetches and decodes the instruction `i`: not halted, both fetch checks pass (R101), and the word at
`pc` decodes to `i` (R102). -/
def Fetches (s : State) (i : Instr) : Prop :=
  s.engine ≠ .halted ∧ s.pc.toNat + 1 ≤ 0xFFF ∧ s.pc.getLsbD 0 = false ∧ decode (wordAtPc s) = .instr i

/-- The general registers an instruction may write: its destination (R22) and `VF` where R26 lists it. -/
def registersWritten : Instr → List RegIdx
  | .ldImm x _ | .addImm x _ | .ldReg x _ | .orReg x _ | .andReg x _ | .xorReg x _ => [x]
  | .addReg x _ | .sub x _ | .shr x _ | .subn x _ | .shl x _ => [x, flagReg]
  | .rnd x _ | .ldVxDt x | .ldVxK x => [x]
  | .drw _ _ _ => [flagReg]
  | .ldVxMem x => (List.finRange 16).filter (fun r => r ≤ x)
  | .cls | .ret | .jp _ | .call _ | .seImm _ _ | .sneImm _ _ | .seReg _ _ | .sneReg _ _ => []
  | .ldI _ | .jpV0 _ | .skp _ | .sknp _ | .ldDtVx _ | .ldStVx _ | .addI _ | .ldF _ | .ldB _ | .ldMemVx _ => []

/-- R224's table: the faults each instruction can raise at execution; DXYN only when `N >= 1`. -/
def faultsAtExecution : Instr → List FaultCause
  | .call _ => [.stackOverflow]
  | .ret => [.stackUnderflow]
  | .ldB _ | .ldMemVx _ => [.addressOutOfRange, .glyphTableWrite]
  | .ldVxMem _ => [.addressOutOfRange]
  | .drw _ _ n => if n = 0 then [] else [.addressOutOfRange]
  | .skp _ | .sknp _ => [.keyIndexOutOfRange]
  | .cls | .jp _ | .seImm _ _ | .sneImm _ _ | .seReg _ _ | .ldImm _ _ | .addImm _ _ | .ldReg _ _ => []
  | .orReg _ _ | .andReg _ _ | .xorReg _ _ | .addReg _ _ | .sub _ _ | .shr _ _ | .subn _ _ | .shl _ _ => []
  | .sneReg _ _ | .ldI _ | .jpV0 _ | .rnd _ _ | .ldVxDt _ | .ldVxK _ | .ldDtVx _ | .ldStVx _ | .addI _ | .ldF _ => []

/-- R104's table: `pc` after an instruction that completed, `s` being the state it started from. -/
def pcWhenCompleted (i : Instr) (s : State) : Word :=
  let skip (test : Bool) : Word := if test then s.pc + 4 else s.pc + 2
  match i with
  | .jp nnn => nnn.setWidth 16
  | .jpV0 nnn => nnn.setWidth 16 + (reg s 0).setWidth 16
  | .call nnn => nnn.setWidth 16
  | .ret => (s.stack[s.sp.toNat - 1]?).getD 0 + 2
  | .seImm x kk => skip (reg s x == kk)
  | .sneImm x kk => skip (reg s x != kk)
  | .seReg x y => skip (reg s x == reg s y)
  | .sneReg x y => skip (reg s x != reg s y)
  | .skp x => skip ((keys s).getLsbD (reg s x).toNat)
  | .sknp x => skip (!(keys s).getLsbD (reg s x).toNat)
  | .cls | .ldImm _ _ | .addImm _ _ | .ldReg _ _ | .orReg _ _ | .andReg _ _ | .xorReg _ _ => s.pc + 2
  | .addReg _ _ | .sub _ _ | .shr _ _ | .subn _ _ | .shl _ _ | .ldI _ | .rnd _ _ | .drw _ _ _ => s.pc + 2
  | .ldVxDt _ | .ldVxK _ | .ldDtVx _ | .ldStVx _ | .addI _ | .ldF _ | .ldB _ | .ldMemVx _ | .ldVxMem _ => s.pc + 2

/-- How many 1 bits of the `n`-row sprite at `I`, drawn from `(V[x], V[y])`, land on pixel `(px, py)` (R200, R201): row `r`
is byte `MEM[I + r]`, column `c` its bit `7 - c`, and coordinates wrap. -/
def spriteHits (s : State) (x y : RegIdx) (n px py : Nat) : Nat :=
  ((List.range n).map (fun r => ((List.range 8).filter (fun c =>
    (readByte s (s.i.toNat + r)).getLsbD (7 - c) && ((reg s x).toNat + c) % s.cfg.fbW == px &&
      ((reg s y).toNat + r) % s.cfg.fbH == py)).length)).sum

end Sys2Proof.Machine
end

