-- ==== Sys2Proof/Certificates/Slice0/Obligations.lean ====
section
/-! DEFINITION. Certificates/Slice0/Obligations.lean: the statements for the provers. Each docstring names the rules of
spec/ it formalises. -/

open Sys2Proof Sys2Proof.Machine

/-! ### Encoding -/

/-- R106, R91: one word of each of the 34 rows, written out bit by bit from its row, decodes to the row's instruction with
the operands in the fields (ignored fields not zero). -/
def Obligations.OpcodeWordsDecodeToTheirInstructions : Prop :=
  decode 0b0000101011100000#16 = .instr .cls ∧
  decode 0b0000010111101110#16 = .instr .ret ∧
  decode 0b0001101010111100#16 = .instr (.jp 0xABC) ∧
  decode 0b0010001100000001#16 = .instr (.call 0x301) ∧
  decode 0b0011001100101010#16 = .instr (.seImm 3 0x2A) ∧
  decode 0b0100111100000001#16 = .instr (.sneImm 15 0x01) ∧
  decode 0b0101000100100111#16 = .instr (.seReg 1 2) ∧
  decode 0b0110101011111111#16 = .instr (.ldImm 10 0xFF) ∧
  decode 0b0111101000000001#16 = .instr (.addImm 10 0x01) ∧
  decode 0b1000000100100000#16 = .instr (.ldReg 1 2) ∧
  decode 0b1000000100100001#16 = .instr (.orReg 1 2) ∧
  decode 0b1000000100100010#16 = .instr (.andReg 1 2) ∧
  decode 0b1000000100100011#16 = .instr (.xorReg 1 2) ∧
  decode 0b1000111100010100#16 = .instr (.addReg 15 1) ∧
  decode 0b1000000100100101#16 = .instr (.sub 1 2) ∧
  decode 0b1000000100100110#16 = .instr (.shr 1 2) ∧
  decode 0b1000000100100111#16 = .instr (.subn 1 2) ∧
  decode 0b1000000100101110#16 = .instr (.shl 1 2) ∧
  decode 0b1001001100111001#16 = .instr (.sneReg 3 3) ∧
  decode 0b1010111111111111#16 = .instr (.ldI 0xFFF) ∧
  decode 0b1011001100000000#16 = .instr (.jpV0 0x300) ∧
  decode 0b1100000100001111#16 = .instr (.rnd 1 0x0F) ∧
  decode 0b1101000000010101#16 = .instr (.drw 0 1 5) ∧
  decode 0b1110010010011110#16 = .instr (.skp 4) ∧
  decode 0b1110010010100001#16 = .instr (.sknp 4) ∧
  decode 0b1111001100000111#16 = .instr (.ldVxDt 3) ∧
  decode 0b1111010100001010#16 = .instr (.ldVxK 5) ∧
  decode 0b1111001000010101#16 = .instr (.ldDtVx 2) ∧
  decode 0b1111001000011000#16 = .instr (.ldStVx 2) ∧
  decode 0b1111001000011110#16 = .instr (.addI 2) ∧
  decode 0b1111001100101001#16 = .instr (.ldF 3) ∧
  decode 0b1111000000110011#16 = .instr (.ldB 0) ∧
  decode 0b1111001001010101#16 = .instr (.ldMemVx 2) ∧
  decode 0b1111111101100101#16 = .instr (.ldVxMem 15)

/-- R92, R106: decoding the encoding of any instruction gives it back, with every operand at every value its field
admits; also through the bytes of the word in memory order, the rest of the bytes given back. -/
def Obligations.EncodeThenDecodeGivesTheInstruction : Prop :=
  ∀ (i : Instr) (rest : List Byte),
    decode (encode i) = .instr i ∧ decodeBytes (bytesOfWord (encode i) ++ rest) = .instr i rest

/-- R106 with the fields of R91: a word decodes to a row's instruction exactly when its masked bits match. -/
def Obligations.DecodeFollowsMaskAndMatch : Prop :=
  ∀ w : Word,
    let x : RegIdx := (w.extractLsb' 8 4).toFin
    let y : RegIdx := (w.extractLsb' 4 4).toFin
    let n : Fin 16 := (w.extractLsb' 0 4).toFin
    let nnn : Addr12 := w.extractLsb' 0 12
    let kk : Byte := w.extractLsb' 0 8
    (decode w = .instr .cls ↔ w &&& 0xF0FF = 0x00E0) ∧
    (decode w = .instr .ret ↔ w &&& 0xF0FF = 0x00EE) ∧
    (decode w = .instr (.jp nnn) ↔ w &&& 0xF000 = 0x1000) ∧
    (decode w = .instr (.call nnn) ↔ w &&& 0xF000 = 0x2000) ∧
    (decode w = .instr (.seImm x kk) ↔ w &&& 0xF000 = 0x3000) ∧
    (decode w = .instr (.sneImm x kk) ↔ w &&& 0xF000 = 0x4000) ∧
    (decode w = .instr (.seReg x y) ↔ w &&& 0xF000 = 0x5000) ∧
    (decode w = .instr (.ldImm x kk) ↔ w &&& 0xF000 = 0x6000) ∧
    (decode w = .instr (.addImm x kk) ↔ w &&& 0xF000 = 0x7000) ∧
    (decode w = .instr (.ldReg x y) ↔ w &&& 0xF00F = 0x8000) ∧
    (decode w = .instr (.orReg x y) ↔ w &&& 0xF00F = 0x8001) ∧
    (decode w = .instr (.andReg x y) ↔ w &&& 0xF00F = 0x8002) ∧
    (decode w = .instr (.xorReg x y) ↔ w &&& 0xF00F = 0x8003) ∧
    (decode w = .instr (.addReg x y) ↔ w &&& 0xF00F = 0x8004) ∧
    (decode w = .instr (.sub x y) ↔ w &&& 0xF00F = 0x8005) ∧
    (decode w = .instr (.shr x y) ↔ w &&& 0xF00F = 0x8006) ∧
    (decode w = .instr (.subn x y) ↔ w &&& 0xF00F = 0x8007) ∧
    (decode w = .instr (.shl x y) ↔ w &&& 0xF00F = 0x800E) ∧
    (decode w = .instr (.sneReg x y) ↔ w &&& 0xF000 = 0x9000) ∧
    (decode w = .instr (.ldI nnn) ↔ w &&& 0xF000 = 0xA000) ∧
    (decode w = .instr (.jpV0 nnn) ↔ w &&& 0xF000 = 0xB000) ∧
    (decode w = .instr (.rnd x kk) ↔ w &&& 0xF000 = 0xC000) ∧
    (decode w = .instr (.drw x y n) ↔ w &&& 0xF000 = 0xD000) ∧
    (decode w = .instr (.skp x) ↔ w &&& 0xF0FF = 0xE09E) ∧
    (decode w = .instr (.sknp x) ↔ w &&& 0xF0FF = 0xE0A1) ∧
    (decode w = .instr (.ldVxDt x) ↔ w &&& 0xF0FF = 0xF007) ∧
    (decode w = .instr (.ldVxK x) ↔ w &&& 0xF0FF = 0xF00A) ∧
    (decode w = .instr (.ldDtVx x) ↔ w &&& 0xF0FF = 0xF015) ∧
    (decode w = .instr (.ldStVx x) ↔ w &&& 0xF0FF = 0xF018) ∧
    (decode w = .instr (.addI x) ↔ w &&& 0xF0FF = 0xF01E) ∧
    (decode w = .instr (.ldF x) ↔ w &&& 0xF0FF = 0xF029) ∧
    (decode w = .instr (.ldB x) ↔ w &&& 0xF0FF = 0xF033) ∧
    (decode w = .instr (.ldMemVx x) ↔ w &&& 0xF0FF = 0xF055) ∧
    (decode w = .instr (.ldVxMem x) ↔ w &&& 0xF0FF = 0xF065)

/-- R107: exactly the words of its table are refused, each under its own name. -/
def Obligations.IllegalWordsAreExactlyThoseOfTheTable : Prop :=
  ∀ w : Word,
    let op : BitVec 4 := w.extractLsb' 12 4
    let n : BitVec 4 := w.extractLsb' 0 4
    let kk : Byte := w.extractLsb' 0 8
    (decode w = .undefinedWord w ↔
      (op = 0x0 ∧ kk ≠ 0xE0 ∧ kk ≠ 0xEE) ∨
      (op = 0x8 ∧ n ∈ [0x8, 0x9, 0xA, 0xB, 0xC, 0xD, 0xF]) ∨
      (op = 0xE ∧ kk ≠ 0x9E ∧ kk ≠ 0xA1) ∨
      (op = 0xF ∧ kk ∉ [0x07, 0x0A, 0x15, 0x18, 0x1E, 0x29, 0x33, 0x55, 0x65])) ∧
    ((∃ i, decode w = .instr i) ∨ decode w = .undefinedWord w)

/-- R96: encoding what a word decodes to gives the word back, with 0 in the fields that are ignored (`X` under op 0x0, `N`
under op 0x5 and 0x9) and nothing else changed. -/
def Obligations.ReencodingKeepsEveryExaminedBit : Prop :=
  ∀ (w : Word) (i : Instr), decode w = .instr i →
    let op : BitVec 4 := w.extractLsb' 12 4
    encode i = w &&& (if op = 0x0 then 0xF0FF else if op = 0x5 ∨ op = 0x9 then 0xFFF0 else 0xFFFF)

/-! ### The cycle -/

/-- R100, R102, R240: a cycle that fetches `i` is `exec i`, then the timer phase if the instruction completed, and the
cycle's sample is used up. (`exec` refuses nothing: `OnlyAnInvalidStackPointerStops`.) -/
def Obligations.StepRunsTheDecodedInstruction : Prop :=
  ∀ (s : State) (i : Instr), Fetches s i →
    (∀ u, exec i s = .next u →
      step s = .next { u with
        dt := if u.engine = .running ∧ u.dt ≠ 0 then u.dt - 1 else u.dt
        st := if u.engine = .running ∧ u.st ≠ 0 then u.st - 1 else u.st
        inputs := u.inputs.tail
        draws := u.draws + 1 }) ∧
    (∀ f, exec i s = .fault f → step s = .fault f)

/-- R101: the range check comes first and reports `pc` above 0xFFF, else 0x1000; then the alignment check; with both
passed the word is `MEM[pc]` and `MEM[pc + 1]`, the lower address the more significant byte, and what it decodes to is
executed on the state the cycle started from: fetch changes nothing. -/
def Obligations.FetchChecksRangeThenAlignment : Prop :=
  ∀ s : State, s.engine ≠ .halted →
    (0xFFF < s.pc.toNat → ∃ t, step s = .next t ∧ Faulted .addressOutOfRange s.pc s t) ∧
    (s.pc = 0xFFF → ∃ t, step s = .next t ∧ Faulted .addressOutOfRange 0x1000 s t) ∧
    (s.pc.toNat < 0xFFF → s.pc.getLsbD 0 = true → ∃ t, step s = .next t ∧ Faulted .misalignedFetch s.pc s t) ∧
    (s.pc.toNat < 0xFFF → s.pc.getLsbD 0 = false → s.pc.toNat ≤ 0xFFE ∧
      (∃ hi lo, fetchBytes s = .ok [hi, lo] ∧ hi = readByte s s.pc.toNat ∧ lo = readByte s (s.pc.toNat + 1) ∧
        wordOfBytes hi lo = wordAtPc s) ∧
      ∀ i, decode (wordAtPc s) = .instr i → step s = finishCycle (exec i s))

/-- R102, R107, R221: a fetched word that matches no row halts the engine with `DecodeFailure` and the word. -/
def Obligations.UndefinedWordHaltsTheEngine : Prop :=
  ∀ s : State, s.engine ≠ .halted → s.pc.toNat + 1 ≤ 0xFFF → s.pc.getLsbD 0 = false →
    (∀ i, decode (wordAtPc s) ≠ .instr i) →
    ∃ t, step s = .next t ∧ Faulted .decodeFailure (wordAtPc s) s t ∧ SampleTaken s t

/-- R223: in `Halted` a cycle changes nothing at all, the sound port keeps its level, and only reset leaves it. -/
def Obligations.HaltedCycleChangesNothing : Prop :=
  ∀ s : State, s.engine = .halted →
    GoneWrong s ∧ step s = .next s ∧ (hostReset s).engine = .running ∧ (hostReset s).faultCode = 0 ∧
      (hostReset s).faultInfo = 0

/-- R222: whenever a cycle ends in `Halted`, the core is exactly as it was before, but for `ENGINE`, `FAULT_CODE` and
`FAULT_INFO`: no write, no `pc` advance, no timer decrement, and the code is one of R221's. -/
def Obligations.EveryHaltIsPrecise : Prop :=
  ∀ s t : State, s.engine ≠ .halted → step s = .next t → t.engine = .halted →
    ∃ c info, Faulted c info s t ∧ SampleTaken s t ∧ 1 ≤ t.faultCode.toNat ∧ t.faultCode.toNat ≤ 7

/-- No cycle gets stuck: from every state whose `SP` is legal (R29), a cycle answers a next state. -/
def Obligations.EveryCycleCompletes : Prop :=
  ∀ s : State, s.sp.toNat ≤ 16 → ∃ t, step s = .next t

/-- The model's own stop (R29, log entry 5): execution never refuses, and it faults only in CALL or RET with an `SP` that is
never produced, where it always does. -/
def Obligations.OnlyAnInvalidStackPointerStops : Prop :=
  ∀ (i : Instr) (s : State),
    (∀ r, exec i s ≠ .refused r) ∧
    (∀ f, exec i s = .fault f ↔
      f = .stackPointerInvalid ∧ 16 < s.sp.toNat ∧ (i = .ret ∨ ∃ nnn, i = .call nnn))

/-- Every cycle keeps the invariant: legal parameters (R7), canonical memory and framebuffer, the glyph table as it was
(R31), `SP` in 0 to 16 (R29), fault registers 0 until a fault and a fault's code afterwards (R36). -/
def Obligations.InvariantKeptByEveryCycle : Prop :=
  ∀ s t : State, s.Inv → step s = .next t → t.Inv

/-- The reset state, of every machine with legal parameters and of the default one, meets the invariant (R260). -/
def Obligations.InvariantHoldsAtReset : Prop :=
  State.reset.Inv ∧ ∀ c : Config, c.wellFormed = true → (State.resetWith c).Inv

/-- R100, R193, R35: a cycle ends in `AwaitingKey` only when it fetched FX0A with no key pressed; then the core is as it was:
`pc` still at the FX0A, the timers not decremented. -/
def Obligations.OnlyTheKeyLoadParks : Prop :=
  ∀ s t : State, step s = .next t → t.engine = .awaitingKey →
    (∃ x, Fetches s (.ldVxK x)) ∧ keys s = 0 ∧ SameCore s t ∧ SameFaultRegs s t ∧ SampleTaken s t

/-- R205, R41: no cycle changes the parameters. -/
def Obligations.NoCycleChangesTheParameters : Prop :=
  ∀ s t : State, step s = .next t → t.cfg = s.cfg

/-- R31, R64: no cycle changes a byte of the glyph table, whatever the state. -/
def Obligations.NoCycleChangesTheGlyphTable : Prop :=
  ∀ s t : State, step s = .next t → ∀ a : Nat, a ≤ 0x04F → readByte t a = readByte s a

/-- R240: a cycle that completes an instruction decrements each timer once if it is nonzero, the two independently, acting
on what FX15 or FX18 of the same cycle left; a cycle that ends in `AwaitingKey`, faults, or is spent in `Halted` leaves both. -/
def Obligations.TimersCountDownOncePerCompletedCycle : Prop :=
  ∀ s t : State, step s = .next t →
    (t.engine ≠ .running → t.dt = s.dt ∧ t.st = s.st) ∧
    (t.engine = .running → ∃ i, Fetches s i ∧
      (∀ x, i = .ldDtVx x → t.dt = if reg s x = 0 then 0 else reg s x - 1) ∧
      ((∀ x, i ≠ .ldDtVx x) → t.dt = if s.dt = 0 then 0 else s.dt - 1) ∧
      (∀ x, i = .ldStVx x → t.st = if reg s x = 0 then 0 else reg s x - 1) ∧
      ((∀ x, i ≠ .ldStVx x) → t.st = if s.st = 0 then 0 else s.st - 1))

/-- R182, R242: after a cycle that runs FX18 with `V[X] = n`, the sound port is 1 exactly when `n` is at least 2. -/
def Obligations.SoundPortAfterSettingTheSoundTimer : Prop :=
  ∀ (s : State) (x : RegIdx), Fetches s (.ldStVx x) →
    ∃ t, step s = .next t ∧ (sndPort t = true ↔ 2 ≤ (reg s x).toNat)

/-! ### Whole-machine rules over all instructions -/

/-- R27, R28, R30, R32, R34: memory is written by FX33 and FX55 only, the screen by DXYN and 00E0 only, stack entries by 2NNN
only, `SP` by 2NNN and 00EE only, `I` by ANNN, FX1E and FX29 only, `DT` by FX15 only and `ST` by FX18 only. -/
def Obligations.OnlyTheNamedInstructionsWriteEachStore : Prop :=
  ∀ (i : Instr) (s t : State), exec i s = .next t →
    ((∀ x, i ≠ .ldB x ∧ i ≠ .ldMemVx x) → t.mem = s.mem) ∧
    (i ≠ .cls → (∀ x y n, i ≠ .drw x y n) → t.fb = s.fb) ∧
    ((∀ a, i ≠ .call a) → t.stack = s.stack) ∧
    (i ≠ .ret → (∀ a, i ≠ .call a) → t.sp = s.sp) ∧
    ((∀ a, i ≠ .ldI a) → (∀ x, i ≠ .addI x ∧ i ≠ .ldF x) → t.i = s.i) ∧
    ((∀ x, i ≠ .ldDtVx x) → t.dt = s.dt) ∧
    ((∀ x, i ≠ .ldStVx x) → t.st = s.st)

/-- R22, R26: an instruction writes no general register but its destination and, where R26 lists it, `VF`. -/
def Obligations.OnlyDestinationsAndListedFlagsAreWritten : Prop :=
  ∀ (i : Instr) (s t : State), exec i s = .next t → SameRegsBut (registersWritten i) s t

/-- R104's table (`pcWhenCompleted`): `pc` at the end of a cycle, `s.pc` being the address of the instruction. A cycle that
completes an instruction leaves what the table says, unchecked; a parked FX0A, every fault and `Halted` leave `pc`. -/
def Obligations.ProgramCounterAfterEachCycle : Prop :=
  ∀ s t : State, step s = .next t →
    (t.engine ≠ .running → t.pc = s.pc) ∧
    (t.engine = .running → ∃ i, Fetches s i ∧ t.pc = pcWhenCompleted i s)

/-- R224's table (`faultsAtExecution`): an instruction raises no fault at execution but those it lists; entering one changes
nothing else. -/
def Obligations.EachInstructionRaisesOnlyItsFaults : Prop :=
  ∀ (i : Instr) (s t : State), exec i s = .next t → t.engine = .halted →
    ∃ c info, c ∈ faultsAtExecution i ∧ Faulted c info s t ∧ SameSamples s t

/-- R60, R161, R234: execution of an instruction that is none of EX9E, EXA1, FX0A and CXKK does not depend on the keys or
the random byte: run with other samples it does the same. -/
def Obligations.OtherInstructionsIgnoreTheInputs : Prop :=
  ∀ (i : Instr) (s : State) (inputs : List HostInput) (draws : Nat),
    (∀ x, i ≠ .skp x ∧ i ≠ .sknp x ∧ i ≠ .ldVxK x) → (∀ x kk, i ≠ .rnd x kk) →
    (∀ t, exec i s = .next t →
      exec i { s with inputs := inputs, draws := draws } = .next { t with inputs := inputs, draws := draws }) ∧
    (∀ f, exec i s = .fault f → exec i { s with inputs := inputs, draws := draws } = .fault f)

/-! ### Reset, load, memory -/

/-- R260, R40: what reset leaves, in any engine state, for any parameters. -/
def Obligations.ResetLeavesTheStatedValues : Prop :=
  ∀ s : State,
    let t := hostReset s
    (∀ r, reg t r = 0) ∧ t.i = 0 ∧ t.pc = 0x200 ∧ t.sp = 0 ∧ (∀ j : Fin 16, t.stack[j] = 0) ∧ t.dt = 0 ∧ t.st = 0 ∧
    (∀ a : Fin 80, readByte t a.val = s.cfg.glyphRom[a]) ∧ (∀ a, 0x050 ≤ a → readByte t a = 0) ∧
    (∀ x y, pixel t x y = false) ∧ t.engine = .running ∧ t.faultCode = 0 ∧ t.faultInfo = 0 ∧ t.cfg = s.cfg

/-- R262: in the freshly reset machine an image of at most 3584 bytes is copied verbatim from 0x200 and nothing else
changes; a longer one is refused whole. The last clause is the model's choice (log entry 15): in every other state, also
after a write through the load port, a load is refused; the spec leaves such runs outside it. -/
def Obligations.ProgramLoadCopiesTheImageOrRefuses : Prop :=
  ∀ (image : List Byte) (s : State),
    (s = hostReset s → image.length ≤ 3584 →
      ∃ t, hostLoad image s = .next t ∧ t = { s with mem := t.mem } ∧
        (∀ k : Fin image.length, readByte t (0x200 + k.val) = image[k]) ∧
        SameMemoryOutside 0x200 image.length s t) ∧
    (s = hostReset s → 3584 < image.length → hostLoad image s = .refused .imageTooLarge) ∧
    (s ≠ hostReset s → hostLoad image s = .refused .loadOutsideReset)

/-- R38, R262: before the first cycle the load port writes the one byte it addresses, at 0x200 or above, and nothing else.
The model's choices (log entry 15): "before the first cycle" is read as every field but memory being as reset leaves it,
and a write below 0x200, or in any other state, is answered by a refusal. -/
def Obligations.LoadPortWritesOneByteOrRefuses : Prop :=
  ∀ (a : Addr12) (b : Byte) (s : State),
    ({ s with mem := [] } = hostReset s → 0x200 ≤ a.toNat →
      ∃ t, loadPort a b s = .next t ∧ t = { s with mem := t.mem } ∧ readByte t a.toNat = b ∧
        SameMemoryOutside a.toNat 1 s t) ∧
    ({ s with mem := [] } = hostReset s → a.toNat < 0x200 → loadPort a b s = .refused .loadBelowProgram) ∧
    ({ s with mem := [] } ≠ hostReset s → loadPort a b s = .refused .loadOutsideReset)

/-- R260, R262, R31: reset gives, and loading keeps, the invariant. -/
def Obligations.HostOperationsKeepTheInvariant : Prop :=
  ∀ s t : State,
    (s.cfg.wellFormed = true → (hostReset s).Inv) ∧
    (∀ image, s.Inv → hostLoad image s = .next t → t.Inv) ∧
    (∀ a b, s.Inv → loadPort a b s = .next t → t.Inv)

/-- The model's own choice (log entry 3): memories in the canonical form that read the same at every address are equal data. -/
def Obligations.CanonicalMemoriesWithEqualReadsAreEqual : Prop :=
  ∀ (rom : Vector Byte 80) (m m' : List Host.Cell),
    Memory.wf rom m = true → Memory.wf rom m' = true →
    (∀ a, Memory.read rom m a = Memory.read rom m' a) → m = m'

/-- R74, R65: a store to the bytes of the next instruction is seen by the next fetch, first byte the more significant. -/
def Obligations.StoreToTheNextInstructionIsFetched : Prop :=
  ∀ (s : State) (x : RegIdx), s.i = s.pc + 2 → 0x050 ≤ s.i.toNat → s.i.toNat + x.val ≤ 0xFFF →
    ∃ t, exec (.ldMemVx x) s = .next t ∧ t.pc = s.i ∧
      wordAtPc t = reg s 0 ++ (if x = 0 then readByte s (s.i.toNat + 1) else reg s 1)

/-! ### Flow control -/

/-- R120, R121: JP and JP V0 complete in every state, go to `NNN` and to `NNN + V[0]` (no wrap, not reduced mod 4096), and
change nothing else. -/
def Obligations.JumpsGoToTheirTargets : Prop :=
  ∀ (s : State) (nnn : Addr12),
    (∃ t, exec (.jp nnn) s = .next t ∧ t.pc.toNat = nnn.toNat ∧ RegisterFrame [] s t) ∧
    (∃ t, exec (.jpV0 nnn) s = .next t ∧ t.pc.toNat = nnn.toNat + (reg s 0).toNat ∧ RegisterFrame [] s t)

/-- R122: with fewer than 16 entries CALL pushes its own address and jumps; everything else is unchanged. -/
def Obligations.CallPushesItsOwnAddress : Prop :=
  ∀ (s : State) (nnn : Addr12) (h : s.sp.toNat < 16),
    ∃ t, exec (.call nnn) s = .next t ∧ t.pc.toNat = nnn.toNat ∧ t.sp.toNat = s.sp.toNat + 1 ∧
      t.stack[s.sp.toNat] = s.pc ∧ (∀ j : Fin 16, j.val ≠ s.sp.toNat → t.stack[j] = s.stack[j]) ∧
      SameRegsBut [] s t ∧ t.i = s.i ∧ SameTimers s t ∧ SameMemory s t ∧ SameScreen s t ∧ SameFaultRegs s t ∧
      t.cfg = s.cfg ∧ SameSamples s t ∧ t.engine = .running

/-- R123: with 1 to 16 entries RET pops and goes on at the popped value plus 2 mod 65536; the slot keeps its content and
everything else is unchanged. -/
def Obligations.ReturnGoesOnAfterTheCall : Prop :=
  ∀ (s : State) (h0 : 0 < s.sp.toNat) (h : s.sp.toNat ≤ 16),
    ∃ t, exec .ret s = .next t ∧ t.sp.toNat = s.sp.toNat - 1 ∧
      t.pc.toNat = ((s.stack[s.sp.toNat - 1]).toNat + 2) % 65536 ∧ (∀ j : Fin 16, t.stack[j] = s.stack[j]) ∧
      SameRegsBut [] s t ∧ t.i = s.i ∧ SameTimers s t ∧ SameMemory s t ∧ SameScreen s t ∧ SameFaultRegs s t ∧
      t.cfg = s.cfg ∧ SameSamples s t ∧ t.engine = .running

/-- R122, R123, R221: the 17th nested call and a return with an empty stack fault with `pc`, nothing written. -/
def Obligations.StackOverflowAndUnderflowFault : Prop :=
  ∀ s : State,
    (s.sp = 16 → ∀ nnn, ∃ t, exec (.call nnn) s = .next t ∧ Faulted .stackOverflow s.pc s t ∧ SameSamples s t) ∧
    (s.sp = 0 → ∃ t, exec .ret s = .next t ∧ Faulted .stackUnderflow s.pc s t ∧ SameSamples s t)

/-- R123 (S5): call followed immediately by return restores `pc` to the address after the call, at any depth below 16. -/
def Obligations.CallThenReturnComesBack : Prop :=
  ∀ (s : State) (nnn : Addr12), s.sp.toNat < 16 →
    ∃ t u, exec (.call nnn) s = .next t ∧ exec .ret t = .next u ∧ u.pc = s.pc + 2 ∧ u.sp = s.sp ∧
      (∀ j : Fin 16, j.val ≠ s.sp.toNat → u.stack[j] = s.stack[j])

/-- R124 to R127: the four comparing skips complete in every state, advance by 4 or 2, and change nothing else. -/
def Obligations.ComparingSkipsAdvanceByFourOrTwo : Prop :=
  ∀ (s : State) (x y : RegIdx) (kk : Byte),
    (∃ t, exec (.seImm x kk) s = .next t ∧
      t.pc.toNat = (s.pc.toNat + if (reg s x).toNat = kk.toNat then 4 else 2) % 65536 ∧ RegisterFrame [] s t) ∧
    (∃ t, exec (.sneImm x kk) s = .next t ∧
      t.pc.toNat = (s.pc.toNat + if (reg s x).toNat ≠ kk.toNat then 4 else 2) % 65536 ∧ RegisterFrame [] s t) ∧
    (∃ t, exec (.seReg x y) s = .next t ∧
      t.pc.toNat = (s.pc.toNat + if (reg s x).toNat = (reg s y).toNat then 4 else 2) % 65536 ∧
      RegisterFrame [] s t) ∧
    (∃ t, exec (.sneReg x y) s = .next t ∧
      t.pc.toNat = (s.pc.toNat + if (reg s x).toNat ≠ (reg s y).toNat then 4 else 2) % 65536 ∧
      RegisterFrame [] s t)

/-! ### Register load and ALU -/

/-- R142: every word 6XKK is LD VX, KK; it loads `KK` into `V[X]` and writes nothing else, `VF` only as the destination. -/
def Obligations.LoadImmediateLoadsTheByte : Prop :=
  (∀ w : Word, w &&& 0xF000 = 0x6000 →
    decode w = .instr (.ldImm (w.extractLsb' 8 4).toFin (w.extractLsb' 0 8))) ∧
  ∀ (s : State) (x : RegIdx) (kk : Byte),
    ∃ t, exec (.ldImm x kk) s = .next t ∧ reg t x = kk ∧ t.pc = s.pc + 2 ∧ RegisterFrame [x] s t

/-- R143, R144: ADD VX, KK wraps mod 256 with no flag; LD VX, VY copies. Both complete in every state. -/
def Obligations.AddImmediateAndCopyWriteOneRegister : Prop :=
  ∀ (s : State) (x y : RegIdx) (kk : Byte),
    (∃ t, exec (.addImm x kk) s = .next t ∧ (reg t x).toNat = ((reg s x).toNat + kk.toNat) % 256 ∧ t.pc = s.pc + 2 ∧
      RegisterFrame [x] s t) ∧
    (∃ t, exec (.ldReg x y) s = .next t ∧ reg t x = reg s y ∧ t.pc = s.pc + 2 ∧ RegisterFrame [x] s t)

/-- R145 to R147: OR, AND, XOR bit by bit on the old values; `VF` is unchanged unless it is the destination. -/
def Obligations.BitwiseOperationsActBitByBit : Prop :=
  ∀ (s : State) (x y : RegIdx),
    (∃ t, exec (.orReg x y) s = .next t ∧
      (∀ b, b < 8 → (reg t x).getLsbD b = ((reg s x).getLsbD b || (reg s y).getLsbD b)) ∧ t.pc = s.pc + 2 ∧
      RegisterFrame [x] s t) ∧
    (∃ t, exec (.andReg x y) s = .next t ∧
      (∀ b, b < 8 → (reg t x).getLsbD b = ((reg s x).getLsbD b && (reg s y).getLsbD b)) ∧ t.pc = s.pc + 2 ∧
      RegisterFrame [x] s t) ∧
    (∃ t, exec (.xorReg x y) s = .next t ∧
      (∀ b, b < 8 → (reg t x).getLsbD b = ((reg s x).getLsbD b ^^ (reg s y).getLsbD b)) ∧ t.pc = s.pc + 2 ∧
      RegisterFrame [x] s t)

/-- R148, R140, R141: the flag is 1 iff the unsigned sum of the old operands exceeds 255; the result is the sum mod 256,
but with `X = 15` the flag is what `VF` holds. -/
def Obligations.AddSetsTheCarryFlag : Prop :=
  ∀ (s : State) (x y : RegIdx),
    ∃ t, exec (.addReg x y) s = .next t ∧
      (reg t flagReg).toNat = (if 255 < (reg s x).toNat + (reg s y).toNat then 1 else 0) ∧
      (x ≠ flagReg → (reg t x).toNat = ((reg s x).toNat + (reg s y).toNat) % 256) ∧
      t.pc = s.pc + 2 ∧ RegisterFrame [x, flagReg] s t

/-- R149, R151, R140, R141: both subtractions wrap mod 256; the flag is 1 iff the minuend is strictly greater. -/
def Obligations.SubtractionsSetTheStrictFlag : Prop :=
  ∀ (s : State) (x y : RegIdx),
    (∃ t, exec (.sub x y) s = .next t ∧
      (reg t flagReg).toNat = (if (reg s x).toNat > (reg s y).toNat then 1 else 0) ∧
      (x ≠ flagReg → ((reg t x).toNat : Int) = ((reg s x).toNat - (reg s y).toNat : Int) % 256) ∧
      t.pc = s.pc + 2 ∧ RegisterFrame [x, flagReg] s t) ∧
    (∃ t, exec (.subn x y) s = .next t ∧
      (reg t flagReg).toNat = (if (reg s y).toNat > (reg s x).toNat then 1 else 0) ∧
      (x ≠ flagReg → ((reg t x).toNat : Int) = ((reg s y).toNat - (reg s x).toNat : Int) % 256) ∧
      t.pc = s.pc + 2 ∧ RegisterFrame [x, flagReg] s t)

/-- R150, R152, R141: the shifts read `V[X]` or `V[Y]` as `SHIFT_SOURCE` says, shift by one, and put the bit shifted out
into `VF`. -/
def Obligations.ShiftsSetTheShiftedOutBit : Prop :=
  ∀ (s : State) (x y : RegIdx),
    let a : Byte := if s.cfg.shiftSource = .x then reg s x else reg s y
    (∃ t, exec (.shr x y) s = .next t ∧ (reg t flagReg).toNat = a.toNat % 2 ∧
      (x ≠ flagReg → (reg t x).toNat = a.toNat / 2) ∧ t.pc = s.pc + 2 ∧ RegisterFrame [x, flagReg] s t) ∧
    (∃ t, exec (.shl x y) s = .next t ∧ (reg t flagReg).toNat = a.toNat / 128 ∧
      (x ≠ flagReg → (reg t x).toNat = a.toNat * 2 % 256) ∧ t.pc = s.pc + 2 ∧ RegisterFrame [x, flagReg] s t)

/-! ### Random -/

/-- R160, R161: RND stores the cycle's random byte masked, whatever that byte is; `VF` is unchanged unless it is the
destination. -/
def Obligations.RandomByteIsMasked : Prop :=
  ∀ (s : State) (x : RegIdx) (kk : Byte),
    ∃ t, exec (.rnd x kk) s = .next t ∧
      (∀ b, b < 8 → (reg t x).getLsbD b = ((randomByte s).getLsbD b && kk.getLsbD b)) ∧ t.pc = s.pc + 2 ∧
      RegisterFrame [x] s t

/-! ### Indexed addressing -/

/-- R165 to R167: the instructions that write `I` complete in every state and change nothing else: `NNN`; the sum mod 65536
with no flag; 5 times the low nibble. -/
def Obligations.AddressRegisterInstructionsWriteI : Prop :=
  ∀ (s : State) (nnn : Addr12) (x : RegIdx),
    (∃ t, exec (.ldI nnn) s = .next t ∧ t.i.toNat = nnn.toNat ∧ t.pc = s.pc + 2 ∧ SameRegsBut [] s t ∧
      SameTimers s t ∧ SameStores s t ∧ t.engine = .running) ∧
    (∃ t, exec (.addI x) s = .next t ∧ t.i.toNat = (s.i.toNat + (reg s x).toNat) % 65536 ∧ t.pc = s.pc + 2 ∧
      SameRegsBut [] s t ∧ SameTimers s t ∧ SameStores s t ∧ t.engine = .running) ∧
    (∃ t, exec (.ldF x) s = .next t ∧ t.i.toNat = (reg s x).toNat % 16 * 5 ∧ t.pc = s.pc + 2 ∧
      SameRegsBut [] s t ∧ SameTimers s t ∧ SameStores s t ∧ t.engine = .running)

/-- R167, R31: after LD F, VX the five bytes at `I` are the glyph of the low nibble, top row first. -/
def Obligations.GlyphAddressPointsAtTheGlyph : Prop :=
  ∀ (s : State) (x : RegIdx), GlyphTableIntact s →
    ∃ t, exec (.ldF x) s = .next t ∧
      ∀ r, r < 5 → s.cfg.glyphRom[5 * ((reg s x).toNat % 16) + r]? = some (readByte t (t.i.toNat + r))

/-- R168: with `I` to `I + 2` writable, FX33 stores hundreds, tens and units and changes nothing else. -/
def Obligations.DecimalDigitsAreStored : Prop :=
  ∀ (s : State) (x : RegIdx), 0x050 ≤ s.i.toNat → s.i.toNat + 2 ≤ 0xFFF →
    ∃ t, exec (.ldB x) s = .next t ∧
      (readByte t s.i.toNat).toNat = (reg s x).toNat / 100 ∧
      (readByte t (s.i.toNat + 1)).toNat = (reg s x).toNat / 10 % 10 ∧
      (readByte t (s.i.toNat + 2)).toNat = (reg s x).toNat % 10 ∧
      SameMemoryOutside s.i.toNat 3 s t ∧ t.pc = s.pc + 2 ∧
      SameRegsBut [] s t ∧ t.i = s.i ∧ SameTimers s t ∧ SameScreen s t ∧ SameStack s t ∧ SameFaultRegs s t ∧
      t.cfg = s.cfg ∧ SameSamples s t ∧ t.engine = .running

/-- R169: with `I` to `I + X` writable, FX55 stores `V[0]` to `V[X]`, lowest register at the lowest address, and changes
nothing else, `I` included. -/
def Obligations.RegistersAreStoredInOrder : Prop :=
  ∀ (s : State) (x : RegIdx), 0x050 ≤ s.i.toNat → s.i.toNat + x.val ≤ 0xFFF →
    ∃ t, exec (.ldMemVx x) s = .next t ∧
      (∀ r : RegIdx, r ≤ x → readByte t (s.i.toNat + r.val) = reg s r) ∧
      SameMemoryOutside s.i.toNat (x.val + 1) s t ∧ t.pc = s.pc + 2 ∧
      SameRegsBut [] s t ∧ t.i = s.i ∧ SameTimers s t ∧ SameScreen s t ∧ SameStack s t ∧ SameFaultRegs s t ∧
      t.cfg = s.cfg ∧ SameSamples s t ∧ t.engine = .running

/-- R170: with `I` to `I + X` in range (the glyph table included), FX65 loads `V[0]` to `V[X]` and changes nothing else,
the registers above `X`, `I` and memory included. -/
def Obligations.RegistersAreLoadedInOrder : Prop :=
  ∀ (s : State) (x : RegIdx), s.i.toNat + x.val ≤ 0xFFF →
    ∃ t, exec (.ldVxMem x) s = .next t ∧
      (∀ r : RegIdx, r ≤ x → reg t r = readByte s (s.i.toNat + r.val)) ∧
      (∀ r : RegIdx, x < r → reg t r = reg s r) ∧ t.pc = s.pc + 2 ∧
      t.i = s.i ∧ SameTimers s t ∧ SameStores s t ∧ t.engine = .running

/-- R62, R64, R66, R69: an access of `n` bytes at `I` with an address out of range, or a store that touches the glyph table,
faults with the lowest offending address and nothing is written. FX33 and FX55 store 3 and `X + 1` bytes, FX65 and DXYN
read `X + 1` and `N`; DXYN with `N = 0` checks nothing. -/
def Obligations.DataAccessFaultsAtTheLowestAddress : Prop :=
  ∀ (s : State) (x y : RegIdx) (n : Fin 16),
    let info : Word := if 0xFFF < s.i.toNat then s.i else 0x1000
    (s.i.toNat ≤ 0x04F →
      (∃ t, exec (.ldB x) s = .next t ∧ Faulted .glyphTableWrite s.i s t ∧ SameSamples s t) ∧
      (∃ t, exec (.ldMemVx x) s = .next t ∧ Faulted .glyphTableWrite s.i s t ∧ SameSamples s t)) ∧
    (0xFFF < s.i.toNat + 2 →
      ∃ t, exec (.ldB x) s = .next t ∧ Faulted .addressOutOfRange info s t ∧ SameSamples s t) ∧
    (0xFFF < s.i.toNat + x.val →
      (∃ t, exec (.ldMemVx x) s = .next t ∧ Faulted .addressOutOfRange info s t ∧ SameSamples s t) ∧
      (∃ t, exec (.ldVxMem x) s = .next t ∧ Faulted .addressOutOfRange info s t ∧ SameSamples s t)) ∧
    (1 ≤ n.val → 0xFFF < s.i.toNat + (n.val - 1) →
      ∃ t, exec (.drw x y n) s = .next t ∧ Faulted .addressOutOfRange info s t ∧ SameSamples s t)

/-! ### Timers -/

/-- R180 to R182: the timer instructions complete in every state; before the cycle's timer phase, FX07 has copied `DT`, FX15
and FX18 have set `DT` and `ST` to `V[X]`, and nothing else has changed. -/
def Obligations.TimerInstructionsCopyTheValue : Prop :=
  ∀ (s : State) (x : RegIdx),
    (∃ t, exec (.ldVxDt x) s = .next t ∧ reg t x = s.dt ∧ t.pc = s.pc + 2 ∧ RegisterFrame [x] s t) ∧
    (∃ t, exec (.ldDtVx x) s = .next t ∧ t.dt = reg s x ∧ t.st = s.st ∧ t.pc = s.pc + 2 ∧ SameRegsBut [] s t ∧
      t.i = s.i ∧ SameStores s t ∧ t.engine = .running) ∧
    (∃ t, exec (.ldStVx x) s = .next t ∧ t.st = reg s x ∧ t.dt = s.dt ∧ t.pc = s.pc + 2 ∧ SameRegsBut [] s t ∧
      t.i = s.i ∧ SameStores s t ∧ t.engine = .running)

/-! ### Input -/

/-- R190, R191: with `V[X]` at most 15 the key skips complete, advance by 4 or 2 on the level of that key in this cycle, and
change nothing else. -/
def Obligations.KeySkipsTestTheNamedKey : Prop :=
  ∀ (s : State) (x : RegIdx), (reg s x).toNat ≤ 15 →
    (∃ t, exec (.skp x) s = .next t ∧
      t.pc.toNat = (s.pc.toNat + if (keys s).getLsbD (reg s x).toNat = true then 4 else 2) % 65536 ∧
      RegisterFrame [] s t) ∧
    (∃ t, exec (.sknp x) s = .next t ∧
      t.pc.toNat = (s.pc.toNat + if (keys s).getLsbD (reg s x).toNat = true then 2 else 4) % 65536 ∧
      RegisterFrame [] s t)

/-- R192: with `V[X]` above 15 both key skips fault with `V[X]` and nothing is written. -/
def Obligations.KeyIndexAboveFifteenFaults : Prop :=
  ∀ (s : State) (x : RegIdx), 15 < (reg s x).toNat →
    (∃ t, exec (.skp x) s = .next t ∧ Faulted .keyIndexOutOfRange ((reg s x).setWidth 16) s t ∧ SameSamples s t) ∧
    (∃ t, exec (.sknp x) s = .next t ∧ Faulted .keyIndexOutOfRange ((reg s x).setWidth 16) s t ∧ SameSamples s t)

/-- R193: with some key pressed FX0A stores the least pressed key's index and goes on. -/
def Obligations.KeyLoadStoresTheLowestPressedKey : Prop :=
  ∀ (s : State) (x : RegIdx) (k : Nat), k < 16 → (keys s).getLsbD k = true →
    (∀ j, j < k → (keys s).getLsbD j = false) →
    ∃ t, exec (.ldVxK x) s = .next t ∧ (reg t x).toNat = k ∧ t.pc = s.pc + 2 ∧ RegisterFrame [x] s t

/-- R193: with no key pressed FX0A parks: `ENGINE` is `AwaitingKey` and nothing else changes. -/
def Obligations.KeyLoadParksWithoutAKey : Prop :=
  ∀ (s : State) (x : RegIdx), (∀ k, k < 16 → (keys s).getLsbD k = false) →
    ∃ t, exec (.ldVxK x) s = .next t ∧ t.engine = .awaitingKey ∧ SameCore s t ∧ SameFaultRegs s t ∧ SameSamples s t

/-! ### Display -/

/-- R201, R200, R77: with every row's address in range DXYN completes on a screen of any size: each pixel is flipped once
for every sprite bit of 1 that lands on it; `VF` is 1 exactly if some bit of 1 met a pixel that was 1 as it then stood (a lit
pixel reached, or a pixel reached twice); nothing else changes. -/
def Obligations.DrawFlipsPixelsAndReportsCollision : Prop :=
  ∀ (s : State) (x y : RegIdx) (n : Fin 16), 1 ≤ s.cfg.fbW → 1 ≤ s.cfg.fbH →
    (n = 0 ∨ s.i.toNat + (n.val - 1) ≤ 0xFFF) →
    ∃ t, exec (.drw x y n) s = .next t ∧
      (∀ px py, px < s.cfg.fbW → py < s.cfg.fbH →
        pixel t px py = (pixel s px py ^^ decide (spriteHits s x y n.val px py % 2 = 1))) ∧
      ((∃ px py, px < s.cfg.fbW ∧ py < s.cfg.fbH ∧
          (pixel s px py = true ∧ 1 ≤ spriteHits s x y n.val px py ∨ 2 ≤ spriteHits s x y n.val px py)) →
        reg t flagReg = 1) ∧
      ((∀ px py, px < s.cfg.fbW → py < s.cfg.fbH →
          ¬ (pixel s px py = true ∧ 1 ≤ spriteHits s x y n.val px py ∨ 2 ≤ spriteHits s x y n.val px py)) →
        reg t flagReg = 0) ∧
      t.pc = s.pc + 2 ∧ SameRegsBut [flagReg] s t ∧ t.i = s.i ∧ SameTimers s t ∧ SameMemory s t ∧ SameStack s t ∧
      SameFaultRegs s t ∧ t.cfg = s.cfg ∧ SameSamples s t ∧ t.engine = .running

/-- R203: drawing the same sprite twice at the same position restores every pixel; on a screen of at least 8 by 15, if the
target was clear the first draw reports no collision, and the second reports one exactly if the sprite has a 1 bit. -/
def Obligations.DrawingTwiceRestoresTheScreen : Prop :=
  ∀ (s t u : State) (x y : RegIdx) (n : Fin 16), 1 ≤ s.cfg.fbW → 1 ≤ s.cfg.fbH →
    exec (.drw x y n) s = .next t → t.engine = .running → exec (.drw x y n) { t with v := s.v } = .next u →
    (∀ px py, px < s.cfg.fbW → py < s.cfg.fbH → pixel u px py = pixel s px py) ∧
    (8 ≤ s.cfg.fbW → 15 ≤ s.cfg.fbH →
      (∀ px py, px < s.cfg.fbW → py < s.cfg.fbH → 1 ≤ spriteHits s x y n.val px py → pixel s px py = false) →
      reg t flagReg = 0 ∧
      (reg u flagReg = 1 ↔ ∃ px py, px < s.cfg.fbW ∧ py < s.cfg.fbH ∧ 1 ≤ spriteHits s x y n.val px py))

/-- R202: every word 0_E0 is CLS; it clears every pixel and touches nothing else, `VF` included. -/
def Obligations.ClearScreenZeroesEveryPixel : Prop :=
  (∀ w : Word, w &&& 0xF0FF = 0x00E0 → decode w = .instr .cls) ∧
  ∀ s : State,
    ∃ t, exec .cls s = .next t ∧ (∀ px py, pixel t px py = false) ∧ t.pc = s.pc + 2 ∧
      SameRegsBut [] s t ∧ t.i = s.i ∧ SameTimers s t ∧ SameMemory s t ∧ SameStack s t ∧ SameFaultRegs s t ∧
      t.cfg = s.cfg ∧ SameSamples s t ∧ t.engine = .running
end

