-- ==== Sys2Proof/Laws/Decode.lean ====
section
/-! SUPPORT. Laws/Decode.lean: the fields of encoded words (spec/30_encoding.md R91, R92). -/

namespace Sys2Proof

theorem fieldOp_encodeA (op : BitVec 4) (nnn : Addr12) : fieldOp (encodeA op nnn) = op := by
  unfold fieldOp encodeA
  exact BitVec.extractLsb'_append_eq_left

theorem fieldNNN_encodeA (op : BitVec 4) (nnn : Addr12) : fieldNNN (encodeA op nnn) = nnn := by
  unfold fieldNNN encodeA
  exact BitVec.extractLsb'_append_eq_right

/-- The bits of a word of format `XK`. -/
theorem getLsbD_encodeXK (op : BitVec 4) (x : RegIdx) (kk : Byte) (i : Nat) :
    (encodeXK op x kk).getLsbD i =
      if i < 8 then kk.getLsbD i
      else if i - 8 < 4 then (BitVec.ofFin x : BitVec 4).getLsbD (i - 8) else op.getLsbD (i - 8 - 4) := by
  show @BitVec.getLsbD (4 + 4 + 8) (op ++ (BitVec.ofFin x : BitVec 4) ++ kk) i = _
  rw [BitVec.getLsbD_append, BitVec.getLsbD_append]

/-- The bits of a word of formats `XY`, `XYS` and `XYN`. -/
theorem getLsbD_encodeXYN (op : BitVec 4) (x y : RegIdx) (n : BitVec 4) (i : Nat) :
    (encodeXYN op x y n).getLsbD i =
      if i < 4 then n.getLsbD i
      else if i - 4 < 4 then (BitVec.ofFin y : BitVec 4).getLsbD (i - 4)
      else if i - 4 - 4 < 4 then (BitVec.ofFin x : BitVec 4).getLsbD (i - 4 - 4)
      else op.getLsbD (i - 4 - 4 - 4) := by
  show @BitVec.getLsbD (4 + 4 + 4 + 4) (op ++ (BitVec.ofFin x : BitVec 4) ++ (BitVec.ofFin y : BitVec 4) ++ n) i = _
  rw [BitVec.getLsbD_append, BitVec.getLsbD_append, BitVec.getLsbD_append]

theorem fieldOp_encodeXK (op : BitVec 4) (x : RegIdx) (kk : Byte) : fieldOp (encodeXK op x kk) = op := by
  apply BitVec.eq_of_getLsbD_eq
  intro i hi
  rw [fieldOp, BitVec.getLsbD_extractLsb', getLsbD_encodeXK]
  interval_cases i <;> simp

theorem fieldX_encodeXK (op : BitVec 4) (x : RegIdx) (kk : Byte) : fieldX (encodeXK op x kk) = x := by
  have h : (encodeXK op x kk).extractLsb' 8 4 = BitVec.ofFin x := by
    apply BitVec.eq_of_getLsbD_eq
    intro i hi
    rw [BitVec.getLsbD_extractLsb', getLsbD_encodeXK]
    generalize (BitVec.ofFin x : BitVec 4) = b
    interval_cases i <;> simp
  rw [fieldX, h]

theorem fieldKK_encodeXK (op : BitVec 4) (x : RegIdx) (kk : Byte) : fieldKK (encodeXK op x kk) = kk := by
  unfold fieldKK encodeXK
  exact BitVec.extractLsb'_append_eq_right

theorem fieldOp_encodeXYN (op : BitVec 4) (x y : RegIdx) (n : BitVec 4) : fieldOp (encodeXYN op x y n) = op := by
  apply BitVec.eq_of_getLsbD_eq
  intro i hi
  rw [fieldOp, BitVec.getLsbD_extractLsb', getLsbD_encodeXYN]
  interval_cases i <;> simp

theorem fieldX_encodeXYN (op : BitVec 4) (x y : RegIdx) (n : BitVec 4) : fieldX (encodeXYN op x y n) = x := by
  have h : (encodeXYN op x y n).extractLsb' 8 4 = BitVec.ofFin x := by
    apply BitVec.eq_of_getLsbD_eq
    intro i hi
    rw [BitVec.getLsbD_extractLsb', getLsbD_encodeXYN]
    generalize (BitVec.ofFin x : BitVec 4) = b
    interval_cases i <;> simp
  rw [fieldX, h]

theorem fieldY_encodeXYN (op : BitVec 4) (x y : RegIdx) (n : BitVec 4) : fieldY (encodeXYN op x y n) = y := by
  have h : (encodeXYN op x y n).extractLsb' 4 4 = BitVec.ofFin y := by
    apply BitVec.eq_of_getLsbD_eq
    intro i hi
    rw [BitVec.getLsbD_extractLsb', getLsbD_encodeXYN]
    generalize (BitVec.ofFin y : BitVec 4) = b
    interval_cases i <;> simp
  rw [fieldY, h]

theorem fieldN_encodeXYN (op : BitVec 4) (x y : RegIdx) (n : BitVec 4) : fieldN (encodeXYN op x y n) = n := by
  unfold fieldN encodeXYN
  exact BitVec.extractLsb'_append_eq_right

theorem fieldRows_encodeXYN (op : BitVec 4) (x y : RegIdx) (n : Fin 16) :
    fieldRows (encodeXYN op x y (BitVec.ofFin n)) = n := by
  have h := fieldN_encodeXYN op x y (BitVec.ofFin n)
  unfold fieldN at h
  rw [fieldRows, h]

/-- The bytes of a word give the word back. -/
theorem wordOfBytes_split (w : Word) : wordOfBytes (w.extractLsb' 8 8) (w.extractLsb' 0 8) = w := by
  apply BitVec.eq_of_getLsbD_eq
  intro i hi
  show @BitVec.getLsbD (8 + 8) (w.extractLsb' 8 8 ++ w.extractLsb' 0 8) i = _
  rw [BitVec.getLsbD_append, BitVec.getLsbD_extractLsb', BitVec.getLsbD_extractLsb']
  interval_cases i <;> simp

/-- Decoding takes two bytes and gives the rest back (R90). -/
theorem decodeBytes_cons (hi lo : Byte) (rest : List Byte) :
    decodeBytes (hi :: lo :: rest) =
      match decode (wordOfBytes hi lo) with
      | .instr i => .instr i rest
      | .undefinedWord w => .undefinedWord w := rfl

end Sys2Proof
end

