-- ==== Sys2Proof/Laws/State.lean ====
section
/-! SUPPORT. Laws/State.lean: what each named operation leaves in each field, one lemma per field per update, so that no
proof unfolds a record update. -/

namespace Sys2Proof.Machine

/-! #### writeReg -/

@[simp] theorem writeReg_v (x : RegIdx) (b : Byte) (s : State) : (writeReg x b s).v = s.v.set x b := rfl
@[simp] theorem writeReg_i (x : RegIdx) (b : Byte) (s : State) : (writeReg x b s).i = s.i := rfl
@[simp] theorem writeReg_pc (x : RegIdx) (b : Byte) (s : State) : (writeReg x b s).pc = s.pc := rfl
@[simp] theorem writeReg_sp (x : RegIdx) (b : Byte) (s : State) : (writeReg x b s).sp = s.sp := rfl
@[simp] theorem writeReg_stack (x : RegIdx) (b : Byte) (s : State) : (writeReg x b s).stack = s.stack := rfl
@[simp] theorem writeReg_dt (x : RegIdx) (b : Byte) (s : State) : (writeReg x b s).dt = s.dt := rfl
@[simp] theorem writeReg_st (x : RegIdx) (b : Byte) (s : State) : (writeReg x b s).st = s.st := rfl
@[simp] theorem writeReg_mem (x : RegIdx) (b : Byte) (s : State) : (writeReg x b s).mem = s.mem := rfl
@[simp] theorem writeReg_fb (x : RegIdx) (b : Byte) (s : State) : (writeReg x b s).fb = s.fb := rfl
@[simp] theorem writeReg_engine (x : RegIdx) (b : Byte) (s : State) : (writeReg x b s).engine = s.engine := rfl
@[simp] theorem writeReg_faultCode (x : RegIdx) (b : Byte) (s : State) : (writeReg x b s).faultCode = s.faultCode := rfl
@[simp] theorem writeReg_faultInfo (x : RegIdx) (b : Byte) (s : State) : (writeReg x b s).faultInfo = s.faultInfo := rfl
@[simp] theorem writeReg_cfg (x : RegIdx) (b : Byte) (s : State) : (writeReg x b s).cfg = s.cfg := rfl
@[simp] theorem writeReg_inputs (x : RegIdx) (b : Byte) (s : State) : (writeReg x b s).inputs = s.inputs := rfl
@[simp] theorem writeReg_draws (x : RegIdx) (b : Byte) (s : State) : (writeReg x b s).draws = s.draws := rfl

/-! #### writeI -/

@[simp] theorem writeI_v (a : Word) (s : State) : (writeI a s).v = s.v := rfl
@[simp] theorem writeI_i (a : Word) (s : State) : (writeI a s).i = a := rfl
@[simp] theorem writeI_pc (a : Word) (s : State) : (writeI a s).pc = s.pc := rfl
@[simp] theorem writeI_sp (a : Word) (s : State) : (writeI a s).sp = s.sp := rfl
@[simp] theorem writeI_stack (a : Word) (s : State) : (writeI a s).stack = s.stack := rfl
@[simp] theorem writeI_dt (a : Word) (s : State) : (writeI a s).dt = s.dt := rfl
@[simp] theorem writeI_st (a : Word) (s : State) : (writeI a s).st = s.st := rfl
@[simp] theorem writeI_mem (a : Word) (s : State) : (writeI a s).mem = s.mem := rfl
@[simp] theorem writeI_fb (a : Word) (s : State) : (writeI a s).fb = s.fb := rfl
@[simp] theorem writeI_engine (a : Word) (s : State) : (writeI a s).engine = s.engine := rfl
@[simp] theorem writeI_faultCode (a : Word) (s : State) : (writeI a s).faultCode = s.faultCode := rfl
@[simp] theorem writeI_faultInfo (a : Word) (s : State) : (writeI a s).faultInfo = s.faultInfo := rfl
@[simp] theorem writeI_cfg (a : Word) (s : State) : (writeI a s).cfg = s.cfg := rfl
@[simp] theorem writeI_inputs (a : Word) (s : State) : (writeI a s).inputs = s.inputs := rfl
@[simp] theorem writeI_draws (a : Word) (s : State) : (writeI a s).draws = s.draws := rfl

/-! #### writeRegs -/

@[simp] theorem writeRegs_v (v : Vector Byte 16) (s : State) : (writeRegs v s).v = v := rfl
@[simp] theorem writeRegs_i (v : Vector Byte 16) (s : State) : (writeRegs v s).i = s.i := rfl
@[simp] theorem writeRegs_pc (v : Vector Byte 16) (s : State) : (writeRegs v s).pc = s.pc := rfl
@[simp] theorem writeRegs_sp (v : Vector Byte 16) (s : State) : (writeRegs v s).sp = s.sp := rfl
@[simp] theorem writeRegs_stack (v : Vector Byte 16) (s : State) : (writeRegs v s).stack = s.stack := rfl
@[simp] theorem writeRegs_dt (v : Vector Byte 16) (s : State) : (writeRegs v s).dt = s.dt := rfl
@[simp] theorem writeRegs_st (v : Vector Byte 16) (s : State) : (writeRegs v s).st = s.st := rfl
@[simp] theorem writeRegs_mem (v : Vector Byte 16) (s : State) : (writeRegs v s).mem = s.mem := rfl
@[simp] theorem writeRegs_fb (v : Vector Byte 16) (s : State) : (writeRegs v s).fb = s.fb := rfl
@[simp] theorem writeRegs_engine (v : Vector Byte 16) (s : State) : (writeRegs v s).engine = s.engine := rfl
@[simp] theorem writeRegs_faultCode (v : Vector Byte 16) (s : State) : (writeRegs v s).faultCode = s.faultCode := rfl
@[simp] theorem writeRegs_faultInfo (v : Vector Byte 16) (s : State) : (writeRegs v s).faultInfo = s.faultInfo := rfl
@[simp] theorem writeRegs_cfg (v : Vector Byte 16) (s : State) : (writeRegs v s).cfg = s.cfg := rfl
@[simp] theorem writeRegs_inputs (v : Vector Byte 16) (s : State) : (writeRegs v s).inputs = s.inputs := rfl
@[simp] theorem writeRegs_draws (v : Vector Byte 16) (s : State) : (writeRegs v s).draws = s.draws := rfl

/-! #### writeDt -/

@[simp] theorem writeDt_v (b : Byte) (s : State) : (writeDt b s).v = s.v := rfl
@[simp] theorem writeDt_i (b : Byte) (s : State) : (writeDt b s).i = s.i := rfl
@[simp] theorem writeDt_pc (b : Byte) (s : State) : (writeDt b s).pc = s.pc := rfl
@[simp] theorem writeDt_sp (b : Byte) (s : State) : (writeDt b s).sp = s.sp := rfl
@[simp] theorem writeDt_stack (b : Byte) (s : State) : (writeDt b s).stack = s.stack := rfl
@[simp] theorem writeDt_dt (b : Byte) (s : State) : (writeDt b s).dt = b := rfl
@[simp] theorem writeDt_st (b : Byte) (s : State) : (writeDt b s).st = s.st := rfl
@[simp] theorem writeDt_mem (b : Byte) (s : State) : (writeDt b s).mem = s.mem := rfl
@[simp] theorem writeDt_fb (b : Byte) (s : State) : (writeDt b s).fb = s.fb := rfl
@[simp] theorem writeDt_engine (b : Byte) (s : State) : (writeDt b s).engine = s.engine := rfl
@[simp] theorem writeDt_faultCode (b : Byte) (s : State) : (writeDt b s).faultCode = s.faultCode := rfl
@[simp] theorem writeDt_faultInfo (b : Byte) (s : State) : (writeDt b s).faultInfo = s.faultInfo := rfl
@[simp] theorem writeDt_cfg (b : Byte) (s : State) : (writeDt b s).cfg = s.cfg := rfl
@[simp] theorem writeDt_inputs (b : Byte) (s : State) : (writeDt b s).inputs = s.inputs := rfl
@[simp] theorem writeDt_draws (b : Byte) (s : State) : (writeDt b s).draws = s.draws := rfl

/-! #### writeSt -/

@[simp] theorem writeSt_v (b : Byte) (s : State) : (writeSt b s).v = s.v := rfl
@[simp] theorem writeSt_i (b : Byte) (s : State) : (writeSt b s).i = s.i := rfl
@[simp] theorem writeSt_pc (b : Byte) (s : State) : (writeSt b s).pc = s.pc := rfl
@[simp] theorem writeSt_sp (b : Byte) (s : State) : (writeSt b s).sp = s.sp := rfl
@[simp] theorem writeSt_stack (b : Byte) (s : State) : (writeSt b s).stack = s.stack := rfl
@[simp] theorem writeSt_dt (b : Byte) (s : State) : (writeSt b s).dt = s.dt := rfl
@[simp] theorem writeSt_st (b : Byte) (s : State) : (writeSt b s).st = b := rfl
@[simp] theorem writeSt_mem (b : Byte) (s : State) : (writeSt b s).mem = s.mem := rfl
@[simp] theorem writeSt_fb (b : Byte) (s : State) : (writeSt b s).fb = s.fb := rfl
@[simp] theorem writeSt_engine (b : Byte) (s : State) : (writeSt b s).engine = s.engine := rfl
@[simp] theorem writeSt_faultCode (b : Byte) (s : State) : (writeSt b s).faultCode = s.faultCode := rfl
@[simp] theorem writeSt_faultInfo (b : Byte) (s : State) : (writeSt b s).faultInfo = s.faultInfo := rfl
@[simp] theorem writeSt_cfg (b : Byte) (s : State) : (writeSt b s).cfg = s.cfg := rfl
@[simp] theorem writeSt_inputs (b : Byte) (s : State) : (writeSt b s).inputs = s.inputs := rfl
@[simp] theorem writeSt_draws (b : Byte) (s : State) : (writeSt b s).draws = s.draws := rfl

/-! #### writeScreen -/

@[simp] theorem writeScreen_v (fb : List Nat) (s : State) : (writeScreen fb s).v = s.v := rfl
@[simp] theorem writeScreen_i (fb : List Nat) (s : State) : (writeScreen fb s).i = s.i := rfl
@[simp] theorem writeScreen_pc (fb : List Nat) (s : State) : (writeScreen fb s).pc = s.pc := rfl
@[simp] theorem writeScreen_sp (fb : List Nat) (s : State) : (writeScreen fb s).sp = s.sp := rfl
@[simp] theorem writeScreen_stack (fb : List Nat) (s : State) : (writeScreen fb s).stack = s.stack := rfl
@[simp] theorem writeScreen_dt (fb : List Nat) (s : State) : (writeScreen fb s).dt = s.dt := rfl
@[simp] theorem writeScreen_st (fb : List Nat) (s : State) : (writeScreen fb s).st = s.st := rfl
@[simp] theorem writeScreen_mem (fb : List Nat) (s : State) : (writeScreen fb s).mem = s.mem := rfl
@[simp] theorem writeScreen_fb (fb : List Nat) (s : State) : (writeScreen fb s).fb = fb := rfl
@[simp] theorem writeScreen_engine (fb : List Nat) (s : State) : (writeScreen fb s).engine = s.engine := rfl
@[simp] theorem writeScreen_faultCode (fb : List Nat) (s : State) : (writeScreen fb s).faultCode = s.faultCode := rfl
@[simp] theorem writeScreen_faultInfo (fb : List Nat) (s : State) : (writeScreen fb s).faultInfo = s.faultInfo := rfl
@[simp] theorem writeScreen_cfg (fb : List Nat) (s : State) : (writeScreen fb s).cfg = s.cfg := rfl
@[simp] theorem writeScreen_inputs (fb : List Nat) (s : State) : (writeScreen fb s).inputs = s.inputs := rfl
@[simp] theorem writeScreen_draws (fb : List Nat) (s : State) : (writeScreen fb s).draws = s.draws := rfl

/-! #### advance -/

@[simp] theorem advance_v (s : State) : (advance s).v = s.v := rfl
@[simp] theorem advance_i (s : State) : (advance s).i = s.i := rfl
@[simp] theorem advance_pc (s : State) : (advance s).pc = s.pc + 2 := rfl
@[simp] theorem advance_sp (s : State) : (advance s).sp = s.sp := rfl
@[simp] theorem advance_stack (s : State) : (advance s).stack = s.stack := rfl
@[simp] theorem advance_dt (s : State) : (advance s).dt = s.dt := rfl
@[simp] theorem advance_st (s : State) : (advance s).st = s.st := rfl
@[simp] theorem advance_mem (s : State) : (advance s).mem = s.mem := rfl
@[simp] theorem advance_fb (s : State) : (advance s).fb = s.fb := rfl
@[simp] theorem advance_engine (s : State) : (advance s).engine = .running := rfl
@[simp] theorem advance_faultCode (s : State) : (advance s).faultCode = s.faultCode := rfl
@[simp] theorem advance_faultInfo (s : State) : (advance s).faultInfo = s.faultInfo := rfl
@[simp] theorem advance_cfg (s : State) : (advance s).cfg = s.cfg := rfl
@[simp] theorem advance_inputs (s : State) : (advance s).inputs = s.inputs := rfl
@[simp] theorem advance_draws (s : State) : (advance s).draws = s.draws := rfl

/-! #### jump -/

@[simp] theorem jump_v (a : Word) (s : State) : (jump a s).v = s.v := rfl
@[simp] theorem jump_i (a : Word) (s : State) : (jump a s).i = s.i := rfl
@[simp] theorem jump_pc (a : Word) (s : State) : (jump a s).pc = a := rfl
@[simp] theorem jump_sp (a : Word) (s : State) : (jump a s).sp = s.sp := rfl
@[simp] theorem jump_stack (a : Word) (s : State) : (jump a s).stack = s.stack := rfl
@[simp] theorem jump_dt (a : Word) (s : State) : (jump a s).dt = s.dt := rfl
@[simp] theorem jump_st (a : Word) (s : State) : (jump a s).st = s.st := rfl
@[simp] theorem jump_mem (a : Word) (s : State) : (jump a s).mem = s.mem := rfl
@[simp] theorem jump_fb (a : Word) (s : State) : (jump a s).fb = s.fb := rfl
@[simp] theorem jump_engine (a : Word) (s : State) : (jump a s).engine = .running := rfl
@[simp] theorem jump_faultCode (a : Word) (s : State) : (jump a s).faultCode = s.faultCode := rfl
@[simp] theorem jump_faultInfo (a : Word) (s : State) : (jump a s).faultInfo = s.faultInfo := rfl
@[simp] theorem jump_cfg (a : Word) (s : State) : (jump a s).cfg = s.cfg := rfl
@[simp] theorem jump_inputs (a : Word) (s : State) : (jump a s).inputs = s.inputs := rfl
@[simp] theorem jump_draws (a : Word) (s : State) : (jump a s).draws = s.draws := rfl

/-! #### park -/

@[simp] theorem park_v (s : State) : (park s).v = s.v := rfl
@[simp] theorem park_i (s : State) : (park s).i = s.i := rfl
@[simp] theorem park_pc (s : State) : (park s).pc = s.pc := rfl
@[simp] theorem park_sp (s : State) : (park s).sp = s.sp := rfl
@[simp] theorem park_stack (s : State) : (park s).stack = s.stack := rfl
@[simp] theorem park_dt (s : State) : (park s).dt = s.dt := rfl
@[simp] theorem park_st (s : State) : (park s).st = s.st := rfl
@[simp] theorem park_mem (s : State) : (park s).mem = s.mem := rfl
@[simp] theorem park_fb (s : State) : (park s).fb = s.fb := rfl
@[simp] theorem park_engine (s : State) : (park s).engine = .awaitingKey := rfl
@[simp] theorem park_faultCode (s : State) : (park s).faultCode = s.faultCode := rfl
@[simp] theorem park_faultInfo (s : State) : (park s).faultInfo = s.faultInfo := rfl
@[simp] theorem park_cfg (s : State) : (park s).cfg = s.cfg := rfl
@[simp] theorem park_inputs (s : State) : (park s).inputs = s.inputs := rfl
@[simp] theorem park_draws (s : State) : (park s).draws = s.draws := rfl

/-! #### writeByte -/

@[simp] theorem writeByte_v (a : Nat) (b : Byte) (s : State) : (writeByte a b s).v = s.v := rfl
@[simp] theorem writeByte_i (a : Nat) (b : Byte) (s : State) : (writeByte a b s).i = s.i := rfl
@[simp] theorem writeByte_pc (a : Nat) (b : Byte) (s : State) : (writeByte a b s).pc = s.pc := rfl
@[simp] theorem writeByte_sp (a : Nat) (b : Byte) (s : State) : (writeByte a b s).sp = s.sp := rfl
@[simp] theorem writeByte_stack (a : Nat) (b : Byte) (s : State) : (writeByte a b s).stack = s.stack := rfl
@[simp] theorem writeByte_dt (a : Nat) (b : Byte) (s : State) : (writeByte a b s).dt = s.dt := rfl
@[simp] theorem writeByte_st (a : Nat) (b : Byte) (s : State) : (writeByte a b s).st = s.st := rfl
@[simp] theorem writeByte_mem (a : Nat) (b : Byte) (s : State) : (writeByte a b s).mem = Memory.write s.cfg.glyphRom s.mem a b := rfl
@[simp] theorem writeByte_fb (a : Nat) (b : Byte) (s : State) : (writeByte a b s).fb = s.fb := rfl
@[simp] theorem writeByte_engine (a : Nat) (b : Byte) (s : State) : (writeByte a b s).engine = s.engine := rfl
@[simp] theorem writeByte_faultCode (a : Nat) (b : Byte) (s : State) : (writeByte a b s).faultCode = s.faultCode := rfl
@[simp] theorem writeByte_faultInfo (a : Nat) (b : Byte) (s : State) : (writeByte a b s).faultInfo = s.faultInfo := rfl
@[simp] theorem writeByte_cfg (a : Nat) (b : Byte) (s : State) : (writeByte a b s).cfg = s.cfg := rfl
@[simp] theorem writeByte_inputs (a : Nat) (b : Byte) (s : State) : (writeByte a b s).inputs = s.inputs := rfl
@[simp] theorem writeByte_draws (a : Nat) (b : Byte) (s : State) : (writeByte a b s).draws = s.draws := rfl

/-! #### enterFault -/

@[simp] theorem enterFault_v (c : FaultCause) (info : Word) (s : State) : (enterFault c info s).v = s.v := rfl
@[simp] theorem enterFault_i (c : FaultCause) (info : Word) (s : State) : (enterFault c info s).i = s.i := rfl
@[simp] theorem enterFault_pc (c : FaultCause) (info : Word) (s : State) : (enterFault c info s).pc = s.pc := rfl
@[simp] theorem enterFault_sp (c : FaultCause) (info : Word) (s : State) : (enterFault c info s).sp = s.sp := rfl
@[simp] theorem enterFault_stack (c : FaultCause) (info : Word) (s : State) : (enterFault c info s).stack = s.stack := rfl
@[simp] theorem enterFault_dt (c : FaultCause) (info : Word) (s : State) : (enterFault c info s).dt = s.dt := rfl
@[simp] theorem enterFault_st (c : FaultCause) (info : Word) (s : State) : (enterFault c info s).st = s.st := rfl
@[simp] theorem enterFault_mem (c : FaultCause) (info : Word) (s : State) : (enterFault c info s).mem = s.mem := rfl
@[simp] theorem enterFault_fb (c : FaultCause) (info : Word) (s : State) : (enterFault c info s).fb = s.fb := rfl
@[simp] theorem enterFault_engine (c : FaultCause) (info : Word) (s : State) : (enterFault c info s).engine = .halted := rfl
@[simp] theorem enterFault_faultCode (c : FaultCause) (info : Word) (s : State) : (enterFault c info s).faultCode = faultCodeOf c := rfl
@[simp] theorem enterFault_faultInfo (c : FaultCause) (info : Word) (s : State) : (enterFault c info s).faultInfo = info := rfl
@[simp] theorem enterFault_cfg (c : FaultCause) (info : Word) (s : State) : (enterFault c info s).cfg = s.cfg := rfl
@[simp] theorem enterFault_inputs (c : FaultCause) (info : Word) (s : State) : (enterFault c info s).inputs = s.inputs := rfl
@[simp] theorem enterFault_draws (c : FaultCause) (info : Word) (s : State) : (enterFault c info s).draws = s.draws := rfl

/-! #### clearScreen -/

@[simp] theorem clearScreen_v (s : State) : (clearScreen s).v = s.v := rfl
@[simp] theorem clearScreen_i (s : State) : (clearScreen s).i = s.i := rfl
@[simp] theorem clearScreen_pc (s : State) : (clearScreen s).pc = s.pc := rfl
@[simp] theorem clearScreen_sp (s : State) : (clearScreen s).sp = s.sp := rfl
@[simp] theorem clearScreen_stack (s : State) : (clearScreen s).stack = s.stack := rfl
@[simp] theorem clearScreen_dt (s : State) : (clearScreen s).dt = s.dt := rfl
@[simp] theorem clearScreen_st (s : State) : (clearScreen s).st = s.st := rfl
@[simp] theorem clearScreen_mem (s : State) : (clearScreen s).mem = s.mem := rfl
@[simp] theorem clearScreen_fb (s : State) : (clearScreen s).fb = [] := rfl
@[simp] theorem clearScreen_engine (s : State) : (clearScreen s).engine = s.engine := rfl
@[simp] theorem clearScreen_faultCode (s : State) : (clearScreen s).faultCode = s.faultCode := rfl
@[simp] theorem clearScreen_faultInfo (s : State) : (clearScreen s).faultInfo = s.faultInfo := rfl
@[simp] theorem clearScreen_cfg (s : State) : (clearScreen s).cfg = s.cfg := rfl
@[simp] theorem clearScreen_inputs (s : State) : (clearScreen s).inputs = s.inputs := rfl
@[simp] theorem clearScreen_draws (s : State) : (clearScreen s).draws = s.draws := rfl

/-! #### consumeInput -/

@[simp] theorem consumeInput_v (s : State) : (consumeInput s).v = s.v := rfl
@[simp] theorem consumeInput_i (s : State) : (consumeInput s).i = s.i := rfl
@[simp] theorem consumeInput_pc (s : State) : (consumeInput s).pc = s.pc := rfl
@[simp] theorem consumeInput_sp (s : State) : (consumeInput s).sp = s.sp := rfl
@[simp] theorem consumeInput_stack (s : State) : (consumeInput s).stack = s.stack := rfl
@[simp] theorem consumeInput_dt (s : State) : (consumeInput s).dt = s.dt := rfl
@[simp] theorem consumeInput_st (s : State) : (consumeInput s).st = s.st := rfl
@[simp] theorem consumeInput_mem (s : State) : (consumeInput s).mem = s.mem := rfl
@[simp] theorem consumeInput_fb (s : State) : (consumeInput s).fb = s.fb := rfl
@[simp] theorem consumeInput_engine (s : State) : (consumeInput s).engine = s.engine := rfl
@[simp] theorem consumeInput_faultCode (s : State) : (consumeInput s).faultCode = s.faultCode := rfl
@[simp] theorem consumeInput_faultInfo (s : State) : (consumeInput s).faultInfo = s.faultInfo := rfl
@[simp] theorem consumeInput_cfg (s : State) : (consumeInput s).cfg = s.cfg := rfl
@[simp] theorem consumeInput_inputs (s : State) : (consumeInput s).inputs = s.inputs.tail := rfl
@[simp] theorem consumeInput_draws (s : State) : (consumeInput s).draws = s.draws + 1 := rfl

/-! #### tickTimers -/

@[simp] theorem tickTimers_v (s : State) : (tickTimers s).v = s.v := rfl
@[simp] theorem tickTimers_i (s : State) : (tickTimers s).i = s.i := rfl
@[simp] theorem tickTimers_pc (s : State) : (tickTimers s).pc = s.pc := rfl
@[simp] theorem tickTimers_sp (s : State) : (tickTimers s).sp = s.sp := rfl
@[simp] theorem tickTimers_stack (s : State) : (tickTimers s).stack = s.stack := rfl
@[simp] theorem tickTimers_dt (s : State) : (tickTimers s).dt = countDown s.dt := rfl
@[simp] theorem tickTimers_st (s : State) : (tickTimers s).st = countDown s.st := rfl
@[simp] theorem tickTimers_mem (s : State) : (tickTimers s).mem = s.mem := rfl
@[simp] theorem tickTimers_fb (s : State) : (tickTimers s).fb = s.fb := rfl
@[simp] theorem tickTimers_engine (s : State) : (tickTimers s).engine = s.engine := rfl
@[simp] theorem tickTimers_faultCode (s : State) : (tickTimers s).faultCode = s.faultCode := rfl
@[simp] theorem tickTimers_faultInfo (s : State) : (tickTimers s).faultInfo = s.faultInfo := rfl
@[simp] theorem tickTimers_cfg (s : State) : (tickTimers s).cfg = s.cfg := rfl
@[simp] theorem tickTimers_inputs (s : State) : (tickTimers s).inputs = s.inputs := rfl
@[simp] theorem tickTimers_draws (s : State) : (tickTimers s).draws = s.draws := rfl

/-! #### writeResultAndFlag -/

@[simp] theorem writeResultAndFlag_v (x : RegIdx) (r f : Byte) (s : State) : (writeResultAndFlag x r f s).v = (s.v.set x r).set flagReg f := rfl
@[simp] theorem writeResultAndFlag_i (x : RegIdx) (r f : Byte) (s : State) : (writeResultAndFlag x r f s).i = s.i := rfl
@[simp] theorem writeResultAndFlag_pc (x : RegIdx) (r f : Byte) (s : State) : (writeResultAndFlag x r f s).pc = s.pc := rfl
@[simp] theorem writeResultAndFlag_sp (x : RegIdx) (r f : Byte) (s : State) : (writeResultAndFlag x r f s).sp = s.sp := rfl
@[simp] theorem writeResultAndFlag_stack (x : RegIdx) (r f : Byte) (s : State) : (writeResultAndFlag x r f s).stack = s.stack := rfl
@[simp] theorem writeResultAndFlag_dt (x : RegIdx) (r f : Byte) (s : State) : (writeResultAndFlag x r f s).dt = s.dt := rfl
@[simp] theorem writeResultAndFlag_st (x : RegIdx) (r f : Byte) (s : State) : (writeResultAndFlag x r f s).st = s.st := rfl
@[simp] theorem writeResultAndFlag_mem (x : RegIdx) (r f : Byte) (s : State) : (writeResultAndFlag x r f s).mem = s.mem := rfl
@[simp] theorem writeResultAndFlag_fb (x : RegIdx) (r f : Byte) (s : State) : (writeResultAndFlag x r f s).fb = s.fb := rfl
@[simp] theorem writeResultAndFlag_engine (x : RegIdx) (r f : Byte) (s : State) : (writeResultAndFlag x r f s).engine = s.engine := rfl
@[simp] theorem writeResultAndFlag_faultCode (x : RegIdx) (r f : Byte) (s : State) : (writeResultAndFlag x r f s).faultCode = s.faultCode := rfl
@[simp] theorem writeResultAndFlag_faultInfo (x : RegIdx) (r f : Byte) (s : State) : (writeResultAndFlag x r f s).faultInfo = s.faultInfo := rfl
@[simp] theorem writeResultAndFlag_cfg (x : RegIdx) (r f : Byte) (s : State) : (writeResultAndFlag x r f s).cfg = s.cfg := rfl
@[simp] theorem writeResultAndFlag_inputs (x : RegIdx) (r f : Byte) (s : State) : (writeResultAndFlag x r f s).inputs = s.inputs := rfl
@[simp] theorem writeResultAndFlag_draws (x : RegIdx) (r f : Byte) (s : State) : (writeResultAndFlag x r f s).draws = s.draws := rfl

/-! #### skipIf -/

@[simp] theorem skipIf_v (c : Bool) (s : State) : (skipIf c s).v = s.v := by cases c <;> rfl
@[simp] theorem skipIf_i (c : Bool) (s : State) : (skipIf c s).i = s.i := by cases c <;> rfl
theorem skipIf_pc (c : Bool) (s : State) : (skipIf c s).pc = if c then s.pc + 4 else s.pc + 2 := by
  cases c
  · rfl
  · show s.pc + 2 + 2 = s.pc + 4
    rw [BitVec.add_assoc]; rfl
@[simp] theorem skipIf_sp (c : Bool) (s : State) : (skipIf c s).sp = s.sp := by cases c <;> rfl
@[simp] theorem skipIf_stack (c : Bool) (s : State) : (skipIf c s).stack = s.stack := by cases c <;> rfl
@[simp] theorem skipIf_dt (c : Bool) (s : State) : (skipIf c s).dt = s.dt := by cases c <;> rfl
@[simp] theorem skipIf_st (c : Bool) (s : State) : (skipIf c s).st = s.st := by cases c <;> rfl
@[simp] theorem skipIf_mem (c : Bool) (s : State) : (skipIf c s).mem = s.mem := by cases c <;> rfl
@[simp] theorem skipIf_fb (c : Bool) (s : State) : (skipIf c s).fb = s.fb := by cases c <;> rfl
@[simp] theorem skipIf_engine (c : Bool) (s : State) : (skipIf c s).engine = .running := by cases c <;> rfl
@[simp] theorem skipIf_faultCode (c : Bool) (s : State) : (skipIf c s).faultCode = s.faultCode := by cases c <;> rfl
@[simp] theorem skipIf_faultInfo (c : Bool) (s : State) : (skipIf c s).faultInfo = s.faultInfo := by cases c <;> rfl
@[simp] theorem skipIf_cfg (c : Bool) (s : State) : (skipIf c s).cfg = s.cfg := by cases c <;> rfl
@[simp] theorem skipIf_inputs (c : Bool) (s : State) : (skipIf c s).inputs = s.inputs := by cases c <;> rfl
@[simp] theorem skipIf_draws (c : Bool) (s : State) : (skipIf c s).draws = s.draws := by cases c <;> rfl

/-! #### endCycle -/

@[simp] theorem endCycle_v (s : State) : (endCycle s).v = s.v := by
  unfold endCycle; split <;> rfl
@[simp] theorem endCycle_i (s : State) : (endCycle s).i = s.i := by
  unfold endCycle; split <;> rfl
@[simp] theorem endCycle_pc (s : State) : (endCycle s).pc = s.pc := by
  unfold endCycle; split <;> rfl
@[simp] theorem endCycle_sp (s : State) : (endCycle s).sp = s.sp := by
  unfold endCycle; split <;> rfl
@[simp] theorem endCycle_stack (s : State) : (endCycle s).stack = s.stack := by
  unfold endCycle; split <;> rfl
@[simp] theorem endCycle_dt (s : State) : (endCycle s).dt = if s.engine = .running then countDown s.dt else s.dt := by
  unfold endCycle; split <;> rfl
@[simp] theorem endCycle_st (s : State) : (endCycle s).st = if s.engine = .running then countDown s.st else s.st := by
  unfold endCycle; split <;> rfl
@[simp] theorem endCycle_mem (s : State) : (endCycle s).mem = s.mem := by
  unfold endCycle; split <;> rfl
@[simp] theorem endCycle_fb (s : State) : (endCycle s).fb = s.fb := by
  unfold endCycle; split <;> rfl
@[simp] theorem endCycle_engine (s : State) : (endCycle s).engine = s.engine := by
  unfold endCycle; split <;> rfl
@[simp] theorem endCycle_faultCode (s : State) : (endCycle s).faultCode = s.faultCode := by
  unfold endCycle; split <;> rfl
@[simp] theorem endCycle_faultInfo (s : State) : (endCycle s).faultInfo = s.faultInfo := by
  unfold endCycle; split <;> rfl
@[simp] theorem endCycle_cfg (s : State) : (endCycle s).cfg = s.cfg := by
  unfold endCycle; split <;> rfl
@[simp] theorem endCycle_inputs (s : State) : (endCycle s).inputs = s.inputs.tail := by
  unfold endCycle; split <;> rfl
@[simp] theorem endCycle_draws (s : State) : (endCycle s).draws = s.draws + 1 := by
  unfold endCycle; split <;> rfl

/-! #### storeBytes: only memory -/

@[simp] theorem storeBytes_v (a : Nat) (bs : List Byte) (s : State) : (storeBytes a bs s).v = s.v := by
  induction bs generalizing a s with
  | nil => rfl
  | cons b bs ih => simp [storeBytes, ih]
@[simp] theorem storeBytes_i (a : Nat) (bs : List Byte) (s : State) : (storeBytes a bs s).i = s.i := by
  induction bs generalizing a s with
  | nil => rfl
  | cons b bs ih => simp [storeBytes, ih]
@[simp] theorem storeBytes_pc (a : Nat) (bs : List Byte) (s : State) : (storeBytes a bs s).pc = s.pc := by
  induction bs generalizing a s with
  | nil => rfl
  | cons b bs ih => simp [storeBytes, ih]
@[simp] theorem storeBytes_sp (a : Nat) (bs : List Byte) (s : State) : (storeBytes a bs s).sp = s.sp := by
  induction bs generalizing a s with
  | nil => rfl
  | cons b bs ih => simp [storeBytes, ih]
@[simp] theorem storeBytes_stack (a : Nat) (bs : List Byte) (s : State) : (storeBytes a bs s).stack = s.stack := by
  induction bs generalizing a s with
  | nil => rfl
  | cons b bs ih => simp [storeBytes, ih]
@[simp] theorem storeBytes_dt (a : Nat) (bs : List Byte) (s : State) : (storeBytes a bs s).dt = s.dt := by
  induction bs generalizing a s with
  | nil => rfl
  | cons b bs ih => simp [storeBytes, ih]
@[simp] theorem storeBytes_st (a : Nat) (bs : List Byte) (s : State) : (storeBytes a bs s).st = s.st := by
  induction bs generalizing a s with
  | nil => rfl
  | cons b bs ih => simp [storeBytes, ih]
@[simp] theorem storeBytes_fb (a : Nat) (bs : List Byte) (s : State) : (storeBytes a bs s).fb = s.fb := by
  induction bs generalizing a s with
  | nil => rfl
  | cons b bs ih => simp [storeBytes, ih]
@[simp] theorem storeBytes_engine (a : Nat) (bs : List Byte) (s : State) : (storeBytes a bs s).engine = s.engine := by
  induction bs generalizing a s with
  | nil => rfl
  | cons b bs ih => simp [storeBytes, ih]
@[simp] theorem storeBytes_faultCode (a : Nat) (bs : List Byte) (s : State) : (storeBytes a bs s).faultCode = s.faultCode := by
  induction bs generalizing a s with
  | nil => rfl
  | cons b bs ih => simp [storeBytes, ih]
@[simp] theorem storeBytes_faultInfo (a : Nat) (bs : List Byte) (s : State) : (storeBytes a bs s).faultInfo = s.faultInfo := by
  induction bs generalizing a s with
  | nil => rfl
  | cons b bs ih => simp [storeBytes, ih]
@[simp] theorem storeBytes_cfg (a : Nat) (bs : List Byte) (s : State) : (storeBytes a bs s).cfg = s.cfg := by
  induction bs generalizing a s with
  | nil => rfl
  | cons b bs ih => simp [storeBytes, ih]
@[simp] theorem storeBytes_inputs (a : Nat) (bs : List Byte) (s : State) : (storeBytes a bs s).inputs = s.inputs := by
  induction bs generalizing a s with
  | nil => rfl
  | cons b bs ih => simp [storeBytes, ih]
@[simp] theorem storeBytes_draws (a : Nat) (bs : List Byte) (s : State) : (storeBytes a bs s).draws = s.draws := by
  induction bs generalizing a s with
  | nil => rfl
  | cons b bs ih => simp [storeBytes, ih]

/-! #### Registers through `reg` -/

theorem reg_writeReg (x r : RegIdx) (b : Byte) (s : State) :
    reg (writeReg x b s) r = if r = x then b else reg s r := by
  have h : reg (writeReg x b s) r = (s.v.set x b)[r.val] := rfl
  rw [h, Vector.getElem_set]
  by_cases hx : x.val = r.val
  · rw [if_pos hx, if_pos (Fin.ext hx.symm)]
  · rw [if_neg hx, if_neg (fun e => hx (congrArg Fin.val e.symm))]
    rfl

theorem reg_writeResultAndFlag (x r : RegIdx) (res f : Byte) (s : State) :
    reg (writeResultAndFlag x res f s) r = if r = flagReg then f else if r = x then res else reg s r := by
  rw [writeResultAndFlag, reg_writeReg, reg_writeReg]

/-- A register read sees only the register file. -/
theorem reg_of_v_eq {s t : State} (h : t.v = s.v) (r : RegIdx) : reg t r = reg s r := by
  simp only [reg, h]

end Sys2Proof.Machine
end

