-- ==== Sys2Proof/Laws/Framebuffer.lean ====
section
/-! SUPPORT. Laws/Framebuffer.lean: the laws of drawing (spec/46_display.md R201, R203) on the list of lit pixels. -/

namespace Sys2Proof.Machine

theorem mem_insertDot {d p : Nat} {fb : List Nat} : p ∈ insertDot d fb ↔ p = d ∨ p ∈ fb := by
  induction fb with
  | nil => simp [insertDot]
  | cons e es ih =>
    unfold insertDot
    split
    · simp
    · simp only [List.mem_cons, ih]; tauto

/-- Toggling flips one pixel and leaves the others. -/
theorem mem_toggleDot {d p : Nat} {fb : List Nat} :
    p ∈ toggleDot d fb ↔ (p ∈ fb ∧ p ≠ d) ∨ (p = d ∧ p ∉ fb) := by
  unfold toggleDot
  by_cases h : d ∈ fb
  · rw [if_pos (by simpa using h), List.mem_filter, bne_iff_ne]
    exact ⟨fun k => .inl k, fun k => k.elim id (fun k => absurd (k.1 ▸ h) k.2)⟩
  · rw [if_neg (by simpa using h), mem_insertDot]
    by_cases hp : p = d
    · subst hp; simp [h]
    · simp [hp]

theorem contains_toggleDot (d p : Nat) (fb : List Nat) :
    (toggleDot d fb).contains p = (fb.contains p ^^ decide (p = d)) := by
  rw [Bool.eq_iff_iff, List.contains_iff_mem, mem_toggleDot]
  by_cases hp : p = d <;> by_cases hm : p ∈ fb <;> simp [hp, hm]

/-- Drawing flips each pixel once for every time the sprite's 1 bits reach it. -/
theorem contains_xorDots (ds : List Nat) (acc : List Nat × Bool) (p : Nat) :
    (xorDots ds acc).1.contains p = (acc.1.contains p ^^ decide (ds.count p % 2 = 1)) := by
  induction ds generalizing acc with
  | nil => simp [xorDots]
  | cons d ds ih =>
    rw [xorDots, ih, contains_toggleDot, List.count_cons]
    by_cases hp : d = p
    · subst hp
      rcases Nat.mod_two_eq_zero_or_one (List.count d ds) with h | h <;>
        cases acc.1.contains d <;> simp [h, Nat.add_mod]
    · have hp' : p ≠ d := fun e => hp e.symm
      simp [hp, hp']

/-- When the sprite reaches no pixel twice, a pixel is flipped exactly if the sprite reaches it. -/
theorem contains_xorDots_nodup (ds : List Nat) (acc : List Nat × Bool) (p : Nat) (h : ds.Nodup) :
    (xorDots ds acc).1.contains p = (acc.1.contains p ^^ ds.contains p) := by
  rw [contains_xorDots, List.Nodup.count h]
  congr 1
  by_cases hp : p ∈ ds <;> simp [hp]

/-- The collision of a draw: some pixel that was lit is reached, or some pixel is reached twice (R201). -/
theorem hit_xorDots (ds : List Nat) (acc : List Nat × Bool) :
    (xorDots ds acc).2 = true ↔
      acc.2 = true ∨ ∃ p, (acc.1.contains p = true ∧ 1 ≤ ds.count p) ∨ 2 ≤ ds.count p := by
  induction ds generalizing acc with
  | nil => simp [xorDots]
  | cons d ds ih =>
    rw [xorDots, ih]
    simp only [Bool.or_eq_true, contains_toggleDot, List.count_cons]
    by_cases hd : acc.1.contains d = true
    · exact ⟨fun _ => .inr ⟨d, .inl ⟨hd, by simp⟩⟩, fun _ => .inl (.inr hd)⟩
    · have hd' : acc.1.contains d = false := by simpa using hd
      have key : ∀ p, ((acc.1.contains p ^^ decide (p = d)) = true ∧ 1 ≤ List.count p ds ∨ 2 ≤ List.count p ds) ↔
          (acc.1.contains p = true ∧ 1 ≤ (List.count p ds + if (d == p) = true then 1 else 0) ∨
            2 ≤ (List.count p ds + if (d == p) = true then 1 else 0)) := by
        intro p
        by_cases hp : p = d
        · subst hp
          simp only [hd', decide_true, Bool.xor_true, Bool.not_false, beq_self_eq_true, if_true, true_and,
            Bool.false_eq_true, false_and, false_or]
          omega
        · simp [hp, Ne.symm hp]
      simp only [key, hd, Bool.false_eq_true, or_false]

/-- When the sprite reaches no pixel twice, the collision is judged by the screen before the draw. -/
theorem hit_xorDots_nodup (ds : List Nat) (acc : List Nat × Bool) (h : ds.Nodup) :
    (xorDots ds acc).2 = (acc.2 || ds.any (fun d => acc.1.contains d)) := by
  induction ds generalizing acc with
  | nil => simp [xorDots]
  | cons d ds ih =>
    obtain ⟨hd, hn⟩ := List.nodup_cons.1 h
    rw [xorDots, ih _ hn, List.any_cons, Bool.or_assoc]
    congr 2
    refine Bool.eq_iff_iff.2 ?_
    simp only [List.any_eq_true]
    refine ⟨fun ⟨e, he, hx⟩ => ⟨e, he, ?_⟩, fun ⟨e, he, hx⟩ => ⟨e, he, ?_⟩⟩
    all_goals
      have : e ≠ d := fun c => hd (c ▸ he)
      simpa [mem_toggleDot, this] using hx

/-! #### The canonical form -/

theorem dotsRising_cons (d : Nat) (ds : List Nat) :
    dotsRising (d :: ds) = true ↔ (∀ e ∈ ds, d < e) ∧ dotsRising ds = true := by
  induction ds generalizing d with
  | nil => simp [dotsRising]
  | cons e es ih =>
    simp only [dotsRising, Bool.and_eq_true, decide_eq_true_eq]
    constructor
    · rintro ⟨hde, he⟩
      refine ⟨fun f hf => ?_, he⟩
      rcases List.mem_cons.1 hf with rfl | hf
      · exact hde
      · exact Nat.lt_trans hde (((ih e).1 he).1 f hf)
    · rintro ⟨h, he⟩
      exact ⟨h e (List.mem_cons_self ..), he⟩

theorem dotsRising_filter (d : Nat) (fb : List Nat) (h : dotsRising fb = true) :
    dotsRising (fb.filter (fun e => e != d)) = true := by
  induction fb with
  | nil => rfl
  | cons e es ih =>
    obtain ⟨he, hes⟩ := (dotsRising_cons e es).1 h
    by_cases c : e = d
    · rw [List.filter_cons_of_neg (by simp [c])]; exact ih hes
    · rw [List.filter_cons_of_pos (by simp [c])]
      exact (dotsRising_cons _ _).2 ⟨fun f hf => he f (List.mem_filter.1 hf).1, ih hes⟩

theorem dotsRising_insertDot (d : Nat) (fb : List Nat) (h : dotsRising fb = true) (hd : d ∉ fb) :
    dotsRising (insertDot d fb) = true := by
  induction fb with
  | nil => rfl
  | cons e es ih =>
    obtain ⟨he, hes⟩ := (dotsRising_cons e es).1 h
    simp only [List.mem_cons, not_or] at hd
    unfold insertDot
    split
    · rename_i hlt
      refine (dotsRising_cons _ _).2 ⟨fun f hf => ?_, h⟩
      rcases List.mem_cons.1 hf with rfl | hf
      · exact hlt
      · exact Nat.lt_trans hlt (he f hf)
    · rename_i hlt
      refine (dotsRising_cons _ _).2 ⟨fun f hf => ?_, ih hes hd.2⟩
      rcases mem_insertDot.1 hf with rfl | hf
      · omega
      · exact he f hf

theorem Framebuffer.wf_iff (c : Config) (fb : List Nat) :
    Framebuffer.wf c fb = true ↔ dotsRising fb = true ∧ ∀ d ∈ fb, d < c.fbW * c.fbH := by
  simp [Framebuffer.wf, List.all_eq_true]

theorem Framebuffer.wf_toggleDot (c : Config) (d : Nat) (fb : List Nat) (h : Framebuffer.wf c fb = true)
    (hd : d < c.fbW * c.fbH) : Framebuffer.wf c (toggleDot d fb) = true := by
  obtain ⟨hr, hall⟩ := (Framebuffer.wf_iff c fb).1 h
  unfold toggleDot
  split
  · exact (Framebuffer.wf_iff _ _).2 ⟨dotsRising_filter d fb hr, fun e he => hall e (List.mem_filter.1 he).1⟩
  · rename_i hc
    refine (Framebuffer.wf_iff _ _).2 ⟨dotsRising_insertDot d fb hr (by simpa using hc), fun e he => ?_⟩
    rcases mem_insertDot.1 he with rfl | he
    · exact hd
    · exact hall e he

/-- Drawing pixels of the screen keeps the framebuffer's form. -/
theorem Framebuffer.wf_xorDots (c : Config) (ds : List Nat) (acc : List Nat × Bool)
    (h : Framebuffer.wf c acc.1 = true) (hd : ∀ d ∈ ds, d < c.fbW * c.fbH) :
    Framebuffer.wf c (xorDots ds acc).1 = true := by
  induction ds generalizing acc with
  | nil => exact h
  | cons d ds ih =>
    exact ih _ (Framebuffer.wf_toggleDot c d _ h (hd d (List.mem_cons_self ..)))
      (fun e he => hd e (List.mem_cons_of_mem _ he))

/-! #### The pixels of a sprite -/

/-- A pixel inside the screen has an index inside the framebuffer. -/
theorem pixelIndex_lt (c : Config) (x y : Nat) (hx : x < c.fbW) (hy : y < c.fbH) :
    pixelIndex c x y < c.fbW * c.fbH := by
  have h : y * c.fbW + c.fbW ≤ c.fbH * c.fbW := by
    rw [← Nat.succ_mul]; exact Nat.mul_le_mul_right _ hy
  unfold pixelIndex
  rw [Nat.mul_comm c.fbW]
  omega

/-- Two pixels with the same index are the same pixel. -/
theorem pixelIndex_inj (c : Config) {x x' y y' : Nat} (hx : x < c.fbW) (hx' : x' < c.fbW)
    (h : pixelIndex c x y = pixelIndex c x' y') : x = x' ∧ y = y' := by
  unfold pixelIndex at h
  have hW : 0 < c.fbW := Nat.lt_of_le_of_lt (Nat.zero_le _) hx
  have e1 : (x + c.fbW * y) % c.fbW = (x' + c.fbW * y') % c.fbW := by
    rw [Nat.mul_comm _ y, Nat.mul_comm _ y', Nat.add_comm x, Nat.add_comm x', h]
  rw [Nat.add_mul_mod_self_left, Nat.add_mul_mod_self_left, Nat.mod_eq_of_lt hx, Nat.mod_eq_of_lt hx'] at e1
  subst e1
  exact ⟨rfl, Nat.eq_of_mul_eq_mul_right hW (Nat.add_right_cancel h)⟩

theorem mem_rowDots (c : Config) (x0 py : Nat) (b : Byte) (d : Nat) :
    d ∈ rowDots c x0 py b ↔
      ∃ col, col < 8 ∧ b.getLsbD (7 - col) = true ∧ pixelIndex c ((x0 + col) % c.fbW) py = d := by
  simp [rowDots, and_assoc]

/-- A sprite reaches a pixel exactly through a 1 bit at some row and column (R200, R201). -/
theorem mem_spriteDots (c : Config) (x0 y0 : Nat) (rows : List Byte) (d : Nat) :
    d ∈ spriteDots c x0 y0 rows ↔
      ∃ r col, ∃ h : r < rows.length, col < 8 ∧ rows[r].getLsbD (7 - col) = true ∧
        pixelIndex c ((x0 + col) % c.fbW) ((y0 + r) % c.fbH) = d := by
  induction rows generalizing y0 with
  | nil => simp [spriteDots]
  | cons b bs ih =>
    rw [spriteDots, List.mem_append, ih, mem_rowDots]
    constructor
    · rintro (⟨col, hc, hb, he⟩ | ⟨r, col, hr, hc, hb, he⟩)
      · exact ⟨0, col, by simp, hc, by simpa using hb, by simpa using he⟩
      · refine ⟨r + 1, col, by simpa using hr, hc, by simpa using hb, ?_⟩
        rw [show y0 + (r + 1) = y0 + 1 + r by omega]; exact he
    · rintro ⟨r, col, hr, hc, hb, he⟩
      cases r with
      | zero => exact .inl ⟨col, hc, by simpa using hb, by simpa using he⟩
      | succ r =>
        refine .inr ⟨r, col, by simpa using hr, hc, by simpa using hb, ?_⟩
        rw [show y0 + 1 + r = y0 + (r + 1) by omega]; exact he

/-- How often a sprite row reaches a pixel. -/
theorem count_rowDots (c : Config) (x0 pyr px py : Nat) (b : Byte) (hx : px < c.fbW) :
    (rowDots c x0 pyr b).count (pixelIndex c px py) =
      ((List.range 8).filter (fun col => b.getLsbD (7 - col) && (x0 + col) % c.fbW == px && pyr == py)).length := by
  rw [rowDots, List.count_eq_countP, List.countP_map, List.countP_filter, List.countP_eq_length_filter]
  congr 2
  funext col
  have hm : (x0 + col) % c.fbW < c.fbW := Nat.mod_lt _ (by omega)
  rw [Bool.eq_iff_iff]
  simp only [Function.comp, Bool.and_eq_true, beq_iff_eq]
  constructor
  · rintro ⟨h, hb⟩
    obtain ⟨h1, h2⟩ := pixelIndex_inj c hm hx h
    exact ⟨⟨hb, h1⟩, h2⟩
  · rintro ⟨⟨hb, h1⟩, h2⟩
    exact ⟨by rw [h1, h2], hb⟩

/-- How often a sprite reaches a pixel. -/
theorem count_spriteDots (c : Config) (x0 y0 px py : Nat) (f : Nat → Byte) (n : Nat) (hx : px < c.fbW) :
    (spriteDots c x0 y0 ((List.range n).map f)).count (pixelIndex c px py) =
      ((List.range n).map (fun r => ((List.range 8).filter (fun col =>
        (f r).getLsbD (7 - col) && (x0 + col) % c.fbW == px && (y0 + r) % c.fbH == py)).length)).sum := by
  induction n generalizing y0 f with
  | zero => simp [spriteDots]
  | succ n ih =>
    rw [List.range_succ_eq_map, List.map_cons, List.map_cons, List.map_map, List.map_map, List.sum_cons, spriteDots,
      List.count_append, count_rowDots _ _ _ _ _ _ hx, ih]
    congr 2
    apply List.map_congr_left
    intro r _
    simp only [Function.comp]
    rw [show y0 + 1 + r = y0 + r.succ by omega]

/-- On a legal screen every pixel a sprite reaches is inside it: coordinates wrap (R77). -/
theorem spriteDots_lt (c : Config) (hc : c.wellFormed = true) (x0 y0 : Nat) (rows : List Byte) :
    ∀ d ∈ spriteDots c x0 y0 rows, d < c.fbW * c.fbH := by
  intro d hd
  obtain ⟨r, col, _, _, _, rfl⟩ := (mem_spriteDots ..).1 hd
  simp only [Config.wellFormed, Bool.and_eq_true, decide_eq_true_eq] at hc
  exact pixelIndex_lt _ _ _ (Nat.mod_lt _ hc.1) (Nat.mod_lt _ hc.2)

end Sys2Proof.Machine
end

