-- ==== Sys2Proof/Laws/Memory.lean ====
section
/-! SUPPORT. Laws/Memory.lean: the laws of the Memory Image: read after write, and that every operation keeps the
canonical form. -/

namespace Sys2Proof.Machine

/-! #### Lookup -/

theorem lookupCell_eraseCell (a b : Nat) (m : List Host.Cell) :
    lookupCell a (eraseCell b m) = if a = b then none else lookupCell a m := by
  induction m with
  | nil => simp [eraseCell, lookupCell]
  | cons c cs ih =>
    simp only [eraseCell] at ih ⊢
    by_cases hc : c.1 = b
    · rw [List.filter_cons_of_neg (by simp [hc]), ih]
      by_cases hab : a = b
      · simp [hab]
      · simp [lookupCell, hc, hab, Ne.symm hab]
    · rw [List.filter_cons_of_pos (by simp [hc])]
      simp only [lookupCell, ih]
      by_cases hca : c.1 = a
      · rw [if_pos hca, if_pos hca, if_neg (fun e => hc (hca.trans e))]
      · rw [if_neg hca, if_neg hca]

theorem lookupCell_insertCell (a b : Nat) (v : Byte) (m : List Host.Cell) (h : lookupCell b m = none) :
    lookupCell a (insertCell b v m) = if a = b then some v else lookupCell a m := by
  induction m with
  | nil => simp [insertCell, lookupCell, eq_comm]
  | cons c cs ih =>
    have hc : c.1 ≠ b := fun e => by simp [lookupCell, e] at h
    have ht : lookupCell b cs = none := by simpa [lookupCell, hc] using h
    unfold insertCell
    by_cases hlt : b < c.1
    · rw [if_pos hlt]
      simp only [lookupCell, eq_comm]
    · rw [if_neg hlt]
      simp only [lookupCell, ih ht]
      by_cases hca : c.1 = a
      · rw [if_pos hca, if_pos hca, if_neg (fun e => hc (hca.trans e))]
      · rw [if_neg hca, if_neg hca]

/-- A read after a write: the value written at its address, every other address as before. -/
theorem Memory.read_write (rom : Vector Byte 80) (m : List Host.Cell) (a b : Nat) (v : Byte) :
    Memory.read rom (Memory.write rom m b v) a = if a = b then v else Memory.read rom m a := by
  unfold Memory.read Memory.write
  by_cases hv : v = unlistedByte rom b
  · rw [if_pos hv, lookupCell_eraseCell]
    by_cases hab : a = b
    · subst hab; rw [if_pos rfl, if_pos rfl, hv]; rfl
    · rw [if_neg hab, if_neg hab]
  · rw [if_neg hv, lookupCell_insertCell _ _ _ _ (by rw [lookupCell_eraseCell, if_pos rfl]), lookupCell_eraseCell]
    by_cases hab : a = b
    · rw [if_pos hab, if_pos hab]; rfl
    · rw [if_neg hab, if_neg hab, if_neg hab]

theorem readByte_writeByte (s : State) (a b : Nat) (v : Byte) :
    readByte (writeByte b v s) a = if a = b then v else readByte s a := Memory.read_write ..

/-- A read sees only memory and the glyph table. -/
theorem readByte_of_eq {s t : State} (hm : t.mem = s.mem) (hc : t.cfg = s.cfg) (a : Nat) :
    readByte t a = readByte s a := by simp only [readByte, hm, hc]

/-- What a run of stores does to each byte. -/
theorem readByte_storeBytes (bs : List Byte) (a b : Nat) (s : State) :
    readByte (storeBytes a bs s) b = if a ≤ b then (bs[b - a]?).getD (readByte s b) else readByte s b := by
  induction bs generalizing a s with
  | nil => simp [storeBytes]
  | cons c cs ih =>
    rw [storeBytes, ih, readByte_writeByte]
    rcases Nat.lt_trichotomy b a with h | h | h
    · rw [if_neg (by omega), if_neg (by omega), if_neg (by omega)]
    · subst h
      rw [if_neg (by omega), if_pos rfl, if_pos (le_refl _)]
      simp
    · rw [if_pos (by omega), if_neg (by omega), if_pos (by omega)]
      have e : b - a = (b - (a + 1)) + 1 := by omega
      rw [e, List.getElem?_cons_succ]

/-- Stores leave everything outside their bytes alone. -/
theorem storeBytes_outside (bs : List Byte) (a : Nat) (s : State) :
    SameMemoryOutside a bs.length s (storeBytes a bs s) := by
  intro b hb
  rw [readByte_storeBytes]
  split
  · rw [List.getElem?_eq_none (by omega)]; rfl
  · rfl

/-! #### The canonical form -/

/-- Every address of the list is above `a`. -/
def cellsAbove (a : Nat) (m : List Host.Cell) : Prop := ∀ c ∈ m, a < c.1

theorem cellsRising_cons (c : Host.Cell) (cs : List Host.Cell) :
    cellsRising (c :: cs) = true ↔ cellsAbove c.1 cs ∧ cellsRising cs = true := by
  induction cs generalizing c with
  | nil => simp [cellsRising, cellsAbove]
  | cons d ds ih =>
    simp only [cellsRising, Bool.and_eq_true, decide_eq_true_eq]
    constructor
    · rintro ⟨hcd, hd⟩
      refine ⟨fun e he => ?_, hd⟩
      rcases List.mem_cons.1 he with rfl | he
      · exact hcd
      · exact Nat.lt_trans hcd (((ih d).1 hd).1 e he)
    · rintro ⟨h, hd⟩
      exact ⟨h d (List.mem_cons_self ..), hd⟩

theorem mem_eraseCell {a : Nat} {m : List Host.Cell} {c : Host.Cell} : c ∈ eraseCell a m ↔ c ∈ m ∧ c.1 ≠ a := by
  simp [eraseCell]

theorem mem_insertCell {a : Nat} {v : Byte} {m : List Host.Cell} {c : Host.Cell} :
    c ∈ insertCell a v m ↔ c = (a, v) ∨ c ∈ m := by
  induction m with
  | nil => simp [insertCell]
  | cons d ds ih =>
    unfold insertCell
    split
    · simp
    · simp only [List.mem_cons, ih]
      tauto

theorem cellsRising_eraseCell (a : Nat) (m : List Host.Cell) (h : cellsRising m = true) :
    cellsRising (eraseCell a m) = true := by
  induction m with
  | nil => rfl
  | cons c cs ih =>
    obtain ⟨hc, hcs⟩ := (cellsRising_cons c cs).1 h
    by_cases e : c.1 = a
    · have : eraseCell a (c :: cs) = eraseCell a cs := List.filter_cons_of_neg (by simp [e])
      rw [this]; exact ih hcs
    · have : eraseCell a (c :: cs) = c :: eraseCell a cs := List.filter_cons_of_pos (by simp [e])
      rw [this]
      exact (cellsRising_cons _ _).2 ⟨fun d hd => hc d (mem_eraseCell.1 hd).1, ih hcs⟩

theorem cellsRising_insertCell (a : Nat) (v : Byte) (m : List Host.Cell) (h : cellsRising m = true)
    (hne : ∀ c ∈ m, c.1 ≠ a) : cellsRising (insertCell a v m) = true := by
  induction m with
  | nil => rfl
  | cons c cs ih =>
    obtain ⟨hc, hcs⟩ := (cellsRising_cons c cs).1 h
    unfold insertCell
    split
    · rename_i hlt
      refine (cellsRising_cons _ _).2 ⟨fun d hd => ?_, h⟩
      rcases List.mem_cons.1 hd with rfl | hd
      · exact hlt
      · exact Nat.lt_trans hlt (hc d hd)
    · rename_i hlt
      refine (cellsRising_cons _ _).2 ⟨fun d hd => ?_, ih hcs (fun d hd => hne d (List.mem_cons_of_mem _ hd))⟩
      rcases mem_insertCell.1 hd with rfl | hd
      · have := hne c (List.mem_cons_self ..)
        show c.1 < a
        omega
      · exact hc d hd

theorem Memory.wf_iff (rom : Vector Byte 80) (m : List Host.Cell) :
    Memory.wf rom m = true ↔
      cellsRising m = true ∧ ∀ c ∈ m, c.1 < memSize ∧ c.2 ≠ unlistedByte rom c.1 := by
  simp [Memory.wf, List.all_eq_true]

/-- A write inside the address space keeps the canonical form. -/
theorem Memory.wf_write (rom : Vector Byte 80) (m : List Host.Cell) (a : Nat) (v : Byte)
    (h : Memory.wf rom m = true) (ha : a < memSize) : Memory.wf rom (Memory.write rom m a v) = true := by
  obtain ⟨hr, hall⟩ := (Memory.wf_iff rom m).1 h
  have hre := cellsRising_eraseCell a m hr
  unfold Memory.write
  split
  · exact (Memory.wf_iff _ _).2 ⟨hre, fun c hc => hall c (mem_eraseCell.1 hc).1⟩
  · rename_i hv
    refine (Memory.wf_iff _ _).2
      ⟨cellsRising_insertCell a v _ hre (fun c hc => (mem_eraseCell.1 hc).2), fun c hc => ?_⟩
    rcases mem_insertCell.1 hc with rfl | hc
    · exact ⟨ha, hv⟩
    · exact hall c (mem_eraseCell.1 hc).1

/-- A run of stores inside the address space keeps the canonical form. -/
theorem storeBytes_wf (bs : List Byte) (a : Nat) (s : State) (h : Memory.wf s.cfg.glyphRom s.mem = true)
    (ha : a + bs.length ≤ memSize) : Memory.wf s.cfg.glyphRom (storeBytes a bs s).mem = true := by
  induction bs generalizing a s with
  | nil => exact h
  | cons b bs ih =>
    simp only [List.length_cons] at ha
    exact ih (a + 1) (writeByte a b s) (Memory.wf_write _ _ _ _ h (by omega)) (by omega)

/-- The memory of every reset is in its canonical form. -/
theorem resetWith_memory_wf (c : Config) : Memory.wf c.glyphRom (State.resetWith c).mem = true := rfl

end Sys2Proof.Machine
end

