-- ==== Sys2Proof/Laws/Ops.lean ====
section
/-! SUPPORT. Laws/Ops.lean: one lemma per shared operation that says once what it can do. -/

namespace Sys2Proof.Machine

/-! #### Address checks (R62, R64, R69) -/

theorem readFault_eq_none {a : Nat} : readFault a = none ↔ a ≤ 0xFFF := by
  unfold readFault; split <;> simp <;> omega

theorem writeFault_eq_none {a : Nat} : writeFault a = none ↔ 0x050 ≤ a ∧ a ≤ 0xFFF := by
  unfold writeFault
  split
  · simp; omega
  · split <;> simp <;> omega

/-- Every address passes. -/
theorem firstFailing_eq_none {check : Nat → Option FaultCause} {a n : Nat} :
    firstFailing check a n = none ↔ ∀ k, k < n → check (a + k) = none := by
  simp [firstFailing]

/-- The reported address fails, and every lower one passes. -/
theorem firstFailing_eq_some {check : Nat → Option FaultCause} {a n b : Nat} {c : FaultCause}
    (h : firstFailing check a n = some (c, b)) :
    ∃ k, k < n ∧ b = a + k ∧ check b = some c ∧ ∀ j, j < k → check (a + j) = none := by
  induction n generalizing b c with
  | zero => simp [firstFailing] at h
  | succ n ih =>
    rw [firstFailing, List.range_succ, List.findSome?_append] at h
    cases hp : List.findSome? (fun k => (check (a + k)).map (fun c => (c, a + k))) (List.range n) with
    | some r =>
      rw [hp] at h
      obtain rfl : r = (c, b) := by simpa using h
      obtain ⟨k, hk, r⟩ := ih hp
      exact ⟨k, by omega, r⟩
    | none =>
      rw [hp] at h
      have hn := firstFailing_eq_none.1 hp
      cases hc : check (a + n) with
      | none => simp [hc] at h
      | some d =>
        simp only [List.findSome?_cons, hc, Option.map_some, Option.none_or,
          Option.some.injEq, Prod.mk.injEq] at h
        obtain ⟨rfl, rfl⟩ := h
        exact ⟨n, by omega, rfl, hc, hn⟩

/-- Reads of `n` bytes all pass exactly when the last address is in range. -/
theorem firstFailing_read_eq_none {a n : Nat} (hn : 0 < n) :
    firstFailing readFault a n = none ↔ a + n ≤ 0x1000 := by
  rw [firstFailing_eq_none]
  constructor
  · intro h
    have := readFault_eq_none.1 (h (n - 1) (by omega))
    omega
  · intro h k hk
    exact readFault_eq_none.2 (by omega)

/-- Stores of `n` bytes all pass exactly when they are above the glyph table and in range. -/
theorem firstFailing_write_eq_none {a n : Nat} (hn : 0 < n) :
    firstFailing writeFault a n = none ↔ 0x050 ≤ a ∧ a + n ≤ 0x1000 := by
  rw [firstFailing_eq_none]
  constructor
  · intro h
    have h0 := writeFault_eq_none.1 (h 0 hn)
    have h1 := writeFault_eq_none.1 (h (n - 1) (by omega))
    omega
  · intro h k hk
    exact writeFault_eq_none.2 (by omega)

/-! #### The stack (R29) -/

theorem pushReturn_of_lt {s : State} (a : Word) (h : s.sp.toNat < 16) :
    pushReturn a s = some { s with stack := s.stack.set s.sp.toNat a h, sp := s.sp + 1 } := dif_pos h

theorem pushReturn_of_ge {s : State} (a : Word) (h : 16 ≤ s.sp.toNat) : pushReturn a s = none :=
  dif_neg (by omega)

theorem popReturn_of_le {s : State} (h0 : s.sp ≠ 0) (h : s.sp.toNat ≤ 16) :
    ∃ hj : s.sp.toNat - 1 < 16, popReturn s = some (s.stack[s.sp.toNat - 1], { s with sp := s.sp - 1 }) := by
  have hp : s.sp.toNat ≠ 0 := fun e => h0 (BitVec.eq_of_toNat_eq (by simpa using e))
  have hj : s.sp.toNat - 1 < 16 := by omega
  exact ⟨hj, by rw [popReturn, Vector.getElem?_eq_getElem hj]⟩

/-! #### Stores at `I` (R168, R169) -/

/-- FX33 and FX55 either store every byte and go on, or enter the fault of the lowest failing address. -/
theorem storeAtI_cases (bytes : List Byte) (s : State) :
    (∃ c a, firstFailing writeFault (baseAddr s) bytes.length = some (c, a) ∧
        storeAtI bytes s = .next (enterFault c (BitVec.ofNat 16 a) s)) ∨
      (firstFailing writeFault (baseAddr s) bytes.length = none ∧
        storeAtI bytes s = .next (advance (storeBytes (baseAddr s) bytes s))) := by
  unfold storeAtI
  cases h : firstFailing writeFault (baseAddr s) bytes.length with
  | none => exact .inr ⟨rfl, rfl⟩
  | some p => exact .inl ⟨p.1, p.2, rfl, rfl⟩

/-! #### Keys (R193) -/

theorem lowestKey_eq_none {key : BitVec 16} : lowestKey key = none ↔ key = 0 := by
  unfold lowestKey
  rw [List.find?_eq_none]
  constructor
  · intro h
    apply BitVec.eq_of_getLsbD_eq
    intro k hk
    simpa using h k (List.mem_range.2 hk)
  · rintro rfl
    simp

theorem lowestKey_eq_some {key : BitVec 16} {k : Nat} :
    lowestKey key = some k ↔ k < 16 ∧ key.getLsbD k = true ∧ ∀ j, j < k → key.getLsbD j = false := by
  unfold lowestKey
  rw [List.find?_range_eq_some]
  simp only [List.mem_range, Bool.not_eq_eq_eq_not, Bool.not_true]
  tauto

/-! #### Fetch (R101) -/

/-- With both checks passed, fetch gives the two bytes at `pc`. -/
theorem fetchBytes_ok {s : State} (hr : s.pc.toNat + 1 ≤ 0xFFF) (ha : s.pc.getLsbD 0 = false) :
    fetchBytes s = .ok [readByte s s.pc.toNat, readByte s (s.pc.toNat + 1)] := by
  rw [fetchBytes, if_neg (by omega), ha]
  rfl

/-! #### The cycle (R100) -/

/-- A fetch that succeeds gives exactly two bytes. -/
theorem fetchBytes_two {s : State} {bytes : List Byte} (h : fetchBytes s = .ok bytes) :
    s.pc.toNat + 1 ≤ 0xFFF ∧ s.pc.getLsbD 0 = false ∧
      bytes = [readByte s s.pc.toNat, readByte s (s.pc.toNat + 1)] := by
  unfold fetchBytes at h
  split at h
  · cases h
  · split at h
    · cases h
    · rename_i h1 h2
      cases h
      exact ⟨by omega, by simpa using h2, rfl⟩

/-- What a step can do: nothing in `Halted`; else a fetch fault, a decode failure, or the decoded instruction. -/
theorem step_cases {s t : State} (h : step s = .next t) :
    (s.engine = .halted ∧ t = s) ∨
    (s.engine ≠ .halted ∧
      ((∃ c info, fetchBytes s = .error (c, info) ∧ t = endCycle (enterFault c info s)) ∨
       (∃ w, s.pc.toNat + 1 ≤ 0xFFF ∧ s.pc.getLsbD 0 = false ∧
          decode (wordOfBytes (readByte s s.pc.toNat) (readByte s (s.pc.toNat + 1))) = .undefinedWord w ∧
          t = endCycle (enterFault .decodeFailure w s)) ∨
       (∃ i u, s.pc.toNat + 1 ≤ 0xFFF ∧ s.pc.getLsbD 0 = false ∧
          decode (wordOfBytes (readByte s s.pc.toNat) (readByte s (s.pc.toNat + 1))) = .instr i ∧
          exec i s = .next u ∧ t = endCycle u))) := by
  unfold step cycleWith at h
  by_cases hh : s.engine = .halted
  · rw [if_pos hh] at h
    cases h
    exact .inl ⟨hh, rfl⟩
  · rw [if_neg hh] at h
    refine .inr ⟨hh, ?_⟩
    cases hf : fetchBytes s with
    | error p =>
      rw [hf] at h
      cases h
      exact .inl ⟨p.1, p.2, rfl, rfl⟩
    | ok bytes =>
      obtain ⟨hr, ha, rfl⟩ := fetchBytes_two hf
      rw [hf] at h
      cases hd : decode (wordOfBytes (readByte s s.pc.toNat) (readByte s (s.pc.toNat + 1))) with
      | undefinedWord w =>
        simp only [decodeBytes_cons, hd] at h
        cases h
        exact .inr (.inl ⟨w, hr, ha, rfl, rfl⟩)
      | instr i =>
        simp only [decodeBytes_cons, hd] at h
        cases hx : exec i s with
        | next u =>
          rw [hx] at h
          cases h
          exact .inr (.inr ⟨i, u, hr, ha, rfl, hx, rfl⟩)
        | fault f => rw [hx] at h; cases h
        | refused r => rw [hx] at h; cases h

end Sys2Proof.Machine
end

