-- ==== Sys2Proof/Laws/Frames.lean ====
section
/-! SUPPORT. Laws/Frames.lean: for each operation an instruction ends with, one lemma that says everything it leaves
unchanged, in the words of Safety.lean. -/

namespace Sys2Proof.Machine

/-- Fault entry changes `ENGINE` and the fault registers and nothing else (R222). -/
theorem enterFault_faulted (c : FaultCause) (info : Word) (s : State) :
    Faulted c info s (enterFault c info s) ∧ SameSamples s (enterFault c info s) :=
  ⟨⟨rfl, rfl, rfl, fun _ _ => rfl, rfl, rfl, ⟨rfl, rfl⟩, fun _ => rfl, fun _ _ => rfl, ⟨rfl, fun _ => rfl⟩, rfl⟩, rfl, rfl⟩

/-- A cycle that ends in a fault takes its sample and leaves the timers (R222, R240). -/
theorem endCycle_enterFault_faulted (c : FaultCause) (info : Word) (s : State) :
    Faulted c info s (endCycle (enterFault c info s)) ∧ SampleTaken s (endCycle (enterFault c info s)) :=
  ⟨⟨rfl, rfl, rfl, fun _ _ => rfl, rfl, rfl, ⟨rfl, rfl⟩, fun _ => rfl, fun _ _ => rfl, ⟨rfl, fun _ => rfl⟩, rfl⟩, rfl, rfl⟩

/-- Parking changes `ENGINE` and nothing else (R193). -/
theorem park_frame (s : State) : SameCore s (park s) ∧ SameFaultRegs s (park s) ∧ SameSamples s (park s) :=
  ⟨⟨fun _ _ => rfl, rfl, rfl, ⟨rfl, rfl⟩, fun _ => rfl, fun _ _ => rfl, ⟨rfl, fun _ => rfl⟩, rfl⟩, ⟨rfl, rfl⟩, rfl, rfl⟩

/-- An instruction that writes one register and goes on. -/
theorem advance_writeReg_frame (x : RegIdx) (b : Byte) (s : State) : RegisterFrame [x] s (advance (writeReg x b s)) := by
  refine ⟨fun r hr => ?_, rfl, ⟨rfl, rfl⟩,
    ⟨fun _ => rfl, fun _ _ => rfl, ⟨rfl, fun _ => rfl⟩, ⟨rfl, rfl⟩, rfl, rfl, rfl⟩, rfl⟩
  show reg (writeReg x b s) r = _
  rw [reg_writeReg, if_neg (by simpa using hr)]

/-- An instruction that writes one register and `VF` and goes on (R141). -/
theorem advance_writeResultAndFlag_frame (x : RegIdx) (b f : Byte) (s : State) :
    RegisterFrame [x, flagReg] s (advance (writeResultAndFlag x b f s)) := by
  refine ⟨fun r hr => ?_, rfl, ⟨rfl, rfl⟩,
    ⟨fun _ => rfl, fun _ _ => rfl, ⟨rfl, fun _ => rfl⟩, ⟨rfl, rfl⟩, rfl, rfl, rfl⟩, rfl⟩
  simp only [List.mem_cons, List.not_mem_nil, or_false, not_or] at hr
  show reg (writeResultAndFlag x b f s) r = _
  rw [reg_writeResultAndFlag, if_neg hr.2, if_neg hr.1]

/-- A skip changes `pc` only. -/
theorem skipIf_frame (c : Bool) (s : State) : RegisterFrame [] s (skipIf c s) := by
  cases c <;> exact ⟨fun _ _ => rfl, rfl, ⟨rfl, rfl⟩,
    ⟨fun _ => rfl, fun _ _ => rfl, ⟨rfl, fun _ => rfl⟩, ⟨rfl, rfl⟩, rfl, rfl, rfl⟩, rfl⟩

/-- How far a skip advances (R103, R104). -/
theorem skipIf_pc_toNat (c : Bool) (s : State) :
    (skipIf c s).pc.toNat = (s.pc.toNat + if c then 4 else 2) % 65536 := by
  rw [skipIf_pc]; cases c <;> simp [BitVec.toNat_add]

/-- A jump changes `pc` only. -/
theorem jump_frame (a : Word) (s : State) : RegisterFrame [] s (jump a s) :=
  ⟨fun _ _ => rfl, rfl, ⟨rfl, rfl⟩, ⟨fun _ => rfl, fun _ _ => rfl, ⟨rfl, fun _ => rfl⟩, ⟨rfl, rfl⟩, rfl, rfl, rfl⟩, rfl⟩

/-- An instruction that writes `I` and goes on. -/
theorem advance_writeI_frame (a : Word) (s : State) :
    SameRegsBut [] s (advance (writeI a s)) ∧ SameTimers s (advance (writeI a s)) ∧
      SameStores s (advance (writeI a s)) ∧ (advance (writeI a s)).engine = .running :=
  ⟨fun _ _ => rfl, ⟨rfl, rfl⟩, ⟨fun _ => rfl, fun _ _ => rfl, ⟨rfl, fun _ => rfl⟩, ⟨rfl, rfl⟩, rfl, rfl, rfl⟩, rfl⟩

/-- An instruction that writes the register file and goes on (FX65). -/
theorem advance_writeRegs_frame (v : Vector Byte 16) (s : State) :
    (advance (writeRegs v s)).pc = s.pc + 2 ∧ (advance (writeRegs v s)).i = s.i ∧
      SameTimers s (advance (writeRegs v s)) ∧ SameStores s (advance (writeRegs v s)) ∧
      (advance (writeRegs v s)).engine = .running :=
  ⟨rfl, rfl, ⟨rfl, rfl⟩, ⟨fun _ => rfl, fun _ _ => rfl, ⟨rfl, fun _ => rfl⟩, ⟨rfl, rfl⟩, rfl, rfl, rfl⟩, rfl⟩

theorem reg_advance_writeRegs (v : Vector Byte 16) (s : State) (r : RegIdx) :
    reg (advance (writeRegs v s)) r = v[r.val] := rfl

/-- An instruction that stores bytes and goes on changes no register and no other store. -/
theorem advance_storeBytes_frame (a : Nat) (bs : List Byte) (s : State) :
    SameMemoryOutside a bs.length s (advance (storeBytes a bs s)) ∧ (advance (storeBytes a bs s)).pc = s.pc + 2 ∧
      SameRegsBut [] s (advance (storeBytes a bs s)) ∧ (advance (storeBytes a bs s)).i = s.i ∧
      SameTimers s (advance (storeBytes a bs s)) ∧ SameScreen s (advance (storeBytes a bs s)) ∧
      SameStack s (advance (storeBytes a bs s)) ∧ SameFaultRegs s (advance (storeBytes a bs s)) ∧
      (advance (storeBytes a bs s)).cfg = s.cfg ∧ SameSamples s (advance (storeBytes a bs s)) ∧
      (advance (storeBytes a bs s)).engine = .running := by
  refine ⟨storeBytes_outside bs a s, by simp, fun r _ => reg_of_v_eq (by simp) r, by simp, ⟨by simp, by simp⟩,
    fun x y => by simp [pixel], ⟨by simp, fun j => by simp⟩, ⟨by simp, by simp⟩, by simp, ⟨by simp, by simp⟩, rfl⟩

/-- The check of an access whose offset `k` is the first to fail (R69). -/
theorem firstFailing_eq_some_of {check : Nat → Option FaultCause} {a n b : Nat} {c : FaultCause} (k : Nat)
    (hk : k < n) (hb : b = a + k) (hc : check b = some c) (hlow : ∀ j, j < k → check (a + j) = none) :
    firstFailing check a n = some (c, b) := by
  cases h : firstFailing check a n with
  | none =>
    have := firstFailing_eq_none.1 h k hk
    rw [← hb, hc] at this
    cases this
  | some p =>
    obtain ⟨k', h1, h2, h3, h4⟩ := firstFailing_eq_some (b := p.2) (c := p.1) h
    rcases Nat.lt_trichotomy k k' with g | g | g
    · have := h4 k g
      rw [← hb, hc] at this
      cases this
    · subst g
      have e : p.2 = b := by rw [h2, hb]
      rw [e, hc] at h3
      cases h3
      rw [← e]
    · have := hlow k' g
      rw [← h2, h3] at this
      cases this

end Sys2Proof.Machine
end

