-- ==== Sys2Proof/Laws/PerInstr.lean ====
section
/-! SUPPORT. Laws/PerInstr.lean: one lemma per instruction: its encoding carries the primary opcode of its row in bits 15
to 12 (spec/30_encoding.md R94, R106). -/

namespace Sys2Proof.Laws.EncodesItsRow

/-- The primary opcode of the instruction's row of R106. -/
def primary : Instr → BitVec 4
  | .cls => 0x0
  | .ret => 0x0
  | .jp _ => 0x1
  | .call _ => 0x2
  | .seImm _ _ => 0x3
  | .sneImm _ _ => 0x4
  | .seReg _ _ => 0x5
  | .ldImm _ _ => 0x6
  | .addImm _ _ => 0x7
  | .ldReg _ _ => 0x8
  | .orReg _ _ => 0x8
  | .andReg _ _ => 0x8
  | .xorReg _ _ => 0x8
  | .addReg _ _ => 0x8
  | .sub _ _ => 0x8
  | .shr _ _ => 0x8
  | .subn _ _ => 0x8
  | .shl _ _ => 0x8
  | .sneReg _ _ => 0x9
  | .ldI _ => 0xA
  | .jpV0 _ => 0xB
  | .rnd _ _ => 0xC
  | .drw _ _ _ => 0xD
  | .skp _ => 0xE
  | .sknp _ => 0xE
  | .ldVxDt _ => 0xF
  | .ldVxK _ => 0xF
  | .ldDtVx _ => 0xF
  | .ldStVx _ => 0xF
  | .addI _ => 0xF
  | .ldF _ => 0xF
  | .ldB _ => 0xF
  | .ldMemVx _ => 0xF
  | .ldVxMem _ => 0xF

/-- The word of `i` has its row's primary opcode. -/
def Statement (i : Instr) : Prop := fieldOp (encode i) = primary i

theorem cls : Statement (.cls) := fieldOp_encodeXK ..
theorem ret : Statement (.ret) := fieldOp_encodeXK ..
theorem jp (nnn : Addr12) : Statement (.jp nnn) := fieldOp_encodeA ..
theorem call (nnn : Addr12) : Statement (.call nnn) := fieldOp_encodeA ..
theorem seImm (x : RegIdx) (kk : Byte) : Statement (.seImm x kk) := fieldOp_encodeXK ..
theorem sneImm (x : RegIdx) (kk : Byte) : Statement (.sneImm x kk) := fieldOp_encodeXK ..
theorem seReg (x : RegIdx) (y : RegIdx) : Statement (.seReg x y) := fieldOp_encodeXYN ..
theorem ldImm (x : RegIdx) (kk : Byte) : Statement (.ldImm x kk) := fieldOp_encodeXK ..
theorem addImm (x : RegIdx) (kk : Byte) : Statement (.addImm x kk) := fieldOp_encodeXK ..
theorem ldReg (x : RegIdx) (y : RegIdx) : Statement (.ldReg x y) := fieldOp_encodeXYN ..
theorem orReg (x : RegIdx) (y : RegIdx) : Statement (.orReg x y) := fieldOp_encodeXYN ..
theorem andReg (x : RegIdx) (y : RegIdx) : Statement (.andReg x y) := fieldOp_encodeXYN ..
theorem xorReg (x : RegIdx) (y : RegIdx) : Statement (.xorReg x y) := fieldOp_encodeXYN ..
theorem addReg (x : RegIdx) (y : RegIdx) : Statement (.addReg x y) := fieldOp_encodeXYN ..
theorem sub (x : RegIdx) (y : RegIdx) : Statement (.sub x y) := fieldOp_encodeXYN ..
theorem shr (x : RegIdx) (y : RegIdx) : Statement (.shr x y) := fieldOp_encodeXYN ..
theorem subn (x : RegIdx) (y : RegIdx) : Statement (.subn x y) := fieldOp_encodeXYN ..
theorem shl (x : RegIdx) (y : RegIdx) : Statement (.shl x y) := fieldOp_encodeXYN ..
theorem sneReg (x : RegIdx) (y : RegIdx) : Statement (.sneReg x y) := fieldOp_encodeXYN ..
theorem ldI (nnn : Addr12) : Statement (.ldI nnn) := fieldOp_encodeA ..
theorem jpV0 (nnn : Addr12) : Statement (.jpV0 nnn) := fieldOp_encodeA ..
theorem rnd (x : RegIdx) (kk : Byte) : Statement (.rnd x kk) := fieldOp_encodeXK ..
theorem drw (x : RegIdx) (y : RegIdx) (n : Fin 16) : Statement (.drw x y n) := fieldOp_encodeXYN ..
theorem skp (x : RegIdx) : Statement (.skp x) := fieldOp_encodeXK ..
theorem sknp (x : RegIdx) : Statement (.sknp x) := fieldOp_encodeXK ..
theorem ldVxDt (x : RegIdx) : Statement (.ldVxDt x) := fieldOp_encodeXK ..
theorem ldVxK (x : RegIdx) : Statement (.ldVxK x) := fieldOp_encodeXK ..
theorem ldDtVx (x : RegIdx) : Statement (.ldDtVx x) := fieldOp_encodeXK ..
theorem ldStVx (x : RegIdx) : Statement (.ldStVx x) := fieldOp_encodeXK ..
theorem addI (x : RegIdx) : Statement (.addI x) := fieldOp_encodeXK ..
theorem ldF (x : RegIdx) : Statement (.ldF x) := fieldOp_encodeXK ..
theorem ldB (x : RegIdx) : Statement (.ldB x) := fieldOp_encodeXK ..
theorem ldMemVx (x : RegIdx) : Statement (.ldMemVx x) := fieldOp_encodeXK ..
theorem ldVxMem (x : RegIdx) : Statement (.ldVxMem x) := fieldOp_encodeXK ..

end Sys2Proof.Laws.EncodesItsRow
end

