-- ==== Sys2Proof/Tests/Slice0.lean ====
section
/-! SUPPORT. Tests/Slice0.lean: small tests of single steps, and a witness for the hypotheses of every obligation. Every
expected value is the spec's: S1 to S9 and the tables of spec/95_test_vectors.md, named in each docstring. -/

namespace Sys2Proof.Tests

open Sys2Proof Sys2Proof.Machine

/-! ### Helpers -/

/-- The reset state with some general registers set. -/
def regs (l : List (RegIdx × Byte)) : State := l.foldl (fun s p => writeReg p.1 p.2 s) State.reset

/-- `s` with `I` set and bytes placed there. -/
def atI (a : Word) (bytes : List Byte) (s : State) : State := storeBytes a.toNat bytes { s with i := a }

/-- `s` with the keys and the random byte of the next cycle settled. -/
def driving (key : BitVec 16) (rnd : Byte) (s : State) : State := { s with inputs := [⟨key, rnd⟩] }

/-- `s` with the shifts reading `V[Y]`. -/
def shiftingY (s : State) : State := { s with cfg := { s.cfg with shiftSource := .y } }

/-- The state after one cycle on the word `w`. -/
def run (s : State) (w : Nat) : Option State :=
  match step (s.withFetchWord 16 w) with
  | .next t => some t
  | .fault _ => none
  | .refused _ => none

/-- What a cycle leaves in some registers, and `pc`. -/
def regsAfter (s : State) (w : Nat) (l : List RegIdx) : Option (List Byte × Word) :=
  (run s w).map (fun t => (l.map (reg t), t.pc))

/-- How a cycle halts: the fault code, the fault information, and `pc`. -/
def haltOf (s : State) (w : Nat) : Option (Engine × BitVec 4 × Word × Word) :=
  (run s w).map (fun t => (t.engine, t.faultCode, t.faultInfo, t.pc))

/-! ### Ill-formed data is refused -/

theorem test_config_without_columns : ({ defaultConfig with fbW := 0 } : Config).wellFormed = false := by decide
theorem test_config_without_rows : ({ defaultConfig with fbH := 0 } : Config).wellFormed = false := by decide
theorem test_config_one_pixel : ({ defaultConfig with fbW := 1, fbH := 1 } : Config).wellFormed = true := by decide
theorem test_image_too_large : imageFits (List.replicate 3585 0) = false := by
  rw [imageFits, List.length_replicate]; decide
theorem test_image_of_full_size : imageFits (List.replicate 3584 0) = true := by
  rw [imageFits, List.length_replicate]; decide
theorem test_memory_unsorted : Memory.wf defaultGlyphRom [(0x301, 1), (0x300, 1)] = false := by decide
theorem test_memory_repeated : Memory.wf defaultGlyphRom [(0x300, 1), (0x300, 2)] = false := by decide
theorem test_memory_outside : Memory.wf defaultGlyphRom [(0x1000, 1)] = false := by decide
theorem test_memory_lists_reset_byte : Memory.wf defaultGlyphRom [(0x300, 0)] = false := by decide
theorem test_memory_lists_glyph_byte : Memory.wf defaultGlyphRom [(0x000, 0xF0)] = false := by decide
theorem test_memory_canonical : Memory.wf defaultGlyphRom [(0x200, 1), (0xFFF, 2)] = true := by decide
theorem test_screen_unsorted : Framebuffer.wf defaultConfig [5, 4] = false := by decide
theorem test_screen_outside : Framebuffer.wf defaultConfig [2048] = false := by decide
theorem test_screen_last_pixel : Framebuffer.wf defaultConfig [0, 2047] = true := by decide
theorem test_stack_pointer_above_sixteen : ¬ State.Inv { State.reset with sp := 17 } :=
  fun h => absurd h.stackPointer (by decide)
theorem test_fault_code_without_fault : ¬ State.Inv { State.reset with faultCode := 1 } :=
  fun h => absurd h.faultRegs (by unfold FaultRegsFit; decide)

/-! ### Decoding words written out from R106 and R91, op X Y N from the left (ignored fields set) -/

theorem test_decode_flow :
    [0b0000_1010_1110_1110#16, 0b0001_0010_0000_0110, 0b0010_0010_0000_1010, 0b0011_0011_0010_1010,
      0b0100_0011_0010_1010, 0b0101_0001_0010_1111, 0b1001_0001_0010_0001, 0b1011_1111_1111_1111].map decode =
    [.instr .ret, .instr (.jp 0x206), .instr (.call 0x20A), .instr (.seImm 3 0x2A),
      .instr (.sneImm 3 0x2A), .instr (.seReg 1 2), .instr (.sneReg 1 2), .instr (.jpV0 0xFFF)] := by decide

theorem test_decode_alu :
    [0b0110_0000_0010_1010#16, 0b0111_0000_0000_0010, 0b1000_0001_0010_0000, 0b1000_0001_0010_0001,
      0b1000_0001_0010_0010, 0b1000_0001_0010_0011, 0b1000_0001_0010_0100, 0b1000_0001_0010_0101,
      0b1000_0001_0000_0110, 0b1000_0001_0010_0111, 0b1000_0001_0000_1110].map decode =
    [.instr (.ldImm 0 0x2A), .instr (.addImm 0 0x02), .instr (.ldReg 1 2), .instr (.orReg 1 2),
      .instr (.andReg 1 2), .instr (.xorReg 1 2), .instr (.addReg 1 2), .instr (.sub 1 2),
      .instr (.shr 1 0), .instr (.subn 1 2), .instr (.shl 1 0)] := by decide

theorem test_decode_random : decode 0b1100_1111_1010_0101 = .instr (.rnd 15 0xA5) := by decide

theorem test_decode_indexed :
    [0b1010_0011_0000_0000#16, 0b1111_0010_0001_1110, 0b1111_0011_0010_1001, 0b1111_0000_0011_0011,
      0b1111_0010_0101_0101, 0b1111_0010_0110_0101].map decode =
    [.instr (.ldI 0x300), .instr (.addI 2), .instr (.ldF 3), .instr (.ldB 0),
      .instr (.ldMemVx 2), .instr (.ldVxMem 2)] := by decide

theorem test_decode_timers :
    [0b1111_0011_0000_0111#16, 0b1111_0010_0001_0101, 0b1111_0010_0001_1000].map decode =
    [.instr (.ldVxDt 3), .instr (.ldDtVx 2), .instr (.ldStVx 2)] := by decide

theorem test_decode_input :
    [0b1110_0100_1001_1110#16, 0b1110_0100_1010_0001, 0b1111_0101_0000_1010].map decode =
    [.instr (.skp 4), .instr (.sknp 4), .instr (.ldVxK 5)] := by decide

theorem test_decode_display :
    [0b0000_0000_1110_0000#16, 0b1101_0001_0010_1111].map decode = [.instr .cls, .instr (.drw 1 2 15)] := by decide

/-- S9, E6 to E10. -/
theorem test_decode_undefined :
    [0x0000#16, 0x0123, 0x00E1, 0x00FE, 0x0FFF, 0x8128, 0x812D, 0x812F, 0xE09F, 0xE19F, 0xE1A0, 0xF000, 0xF1FF, 0xF108,
      0xF175].all (fun w => decode w == .undefinedWord w) = true := by decide

theorem test_decode_bytes : decodeBytes [0x12, 0x06, 0x60] = .instr (.jp 0x206) [0x60] := by decide
theorem test_decode_one_byte : decodeBytes [0x12] = .truncated := by decide
theorem test_table_word : decodeTableWord 16 0xD125 = some (.drw 1 2 5) := by decide
theorem test_table_word_undefined : decodeTableWord 16 0x8128 = none := by decide
theorem test_fetch_word :
    (fun s => (readByte s 0x200, readByte s 0x201)) (State.reset.withFetchWord 16 0x6AFF) = (0x6A, 0xFF) := by decide

/-! ### Fetch, decode, halting (95_test_vectors.md 2.1) -/

/-- E1. -/
theorem test_misaligned_fetch : haltOf { State.reset with pc := 0x201 } 0x6000 = some (.halted, 5, 0x201, 0x201) := by
  decide
/-- E2. -/
theorem test_range_before_alignment :
    (fun o => match o with | .next t => some (t.engine, t.faultCode, t.faultInfo, t.pc) | _ => none)
      (step { State.reset with pc := 0xFFF }) = some (.halted, 2, 0x1000, 0xFFF) := by decide
/-- E4. -/
theorem test_last_word : (run { State.reset with pc := 0xFFE } 0x6000).map (fun t => (t.engine, t.pc)) =
    some (.running, 0x1000) := by decide
/-- E5: no timer decrement in a faulting cycle. -/
theorem test_fault_freezes_timers :
    (run { State.reset with dt := 5, st := 5 } 0x0000).map (fun t => (t.faultCode, t.dt, t.st)) = some (1, 5, 5) := by
  decide
/-- E11. -/
theorem test_halted_stays :
    (run { State.reset with engine := .halted, dt := 5 } 0x6000).map (fun t => (t.engine, t.pc, t.dt, t.draws)) =
      some (.halted, 0x200, 5, 0) := by decide
/-- R260: reset out of `Halted`. -/
theorem test_reset_from_halted :
    hostReset { State.reset with engine := .halted, faultCode := 4, faultInfo := 0x200, sp := 3 } = State.reset := by
  decide
/-- S10's image: the first byte at 0x200. -/
theorem test_load : (match hostLoad [0x12, 0x06, 0x00, 0x00, 0x00, 0x00, 0x60, 0x2A] State.reset with
    | .next t => readBytes t 0x200 8
    | _ => []) = [0x12, 0x06, 0x00, 0x00, 0x00, 0x00, 0x60, 0x2A] := by decide

/-! ### Flow control (2.2) -/

/-- F1. -/
theorem test_jp : (run State.reset 0x1ABC).map State.pc = some 0xABC := by decide
/-- F3: not reduced mod 4096. -/
theorem test_jpV0 : (run (regs [(0, 0xFF)]) 0xBFFF).map State.pc = some 0x10FE := by decide
/-- F4. -/
theorem test_call : (run { State.reset with pc := 0x246, sp := 15 } 0x2300).map (fun t => (t.pc, t.sp, t.stack[15])) =
    some (0x300, 16, 0x246) := by decide
/-- F5. -/
theorem test_call_overflow : haltOf { State.reset with pc := 0x246, sp := 16 } 0x2300 =
    some (.halted, 3, 0x246, 0x246) := by decide
/-- F6. -/
theorem test_ret : (run { State.reset with pc := 0x400, sp := 2, stack := State.reset.stack.set 1 0x30A } 0x00EE).map
    (fun t => (t.pc, t.sp, t.stack[1])) = some (0x30C, 1, 0x30A) := by decide
/-- F7. -/
theorem test_ret_underflow : haltOf State.reset 0x00EE = some (.halted, 4, 0x200, 0x200) := by decide
/-- F9. -/
theorem test_seImm : (run (regs [(15, 1)]) 0x3F01).map State.pc = some 0x204 := by decide
/-- F10. -/
theorem test_sneImm : (run (regs [(15, 1)]) 0x4F01).map State.pc = some 0x202 := by decide
/-- F11. -/
theorem test_seReg : (run (regs [(1, 9), (2, 9)]) 0x5127).map State.pc = some 0x204 := by decide
/-- F12. -/
theorem test_seReg_differs : (run (regs [(1, 9), (2, 8)]) 0x512F).map State.pc = some 0x202 := by decide
/-- F13. -/
theorem test_sneReg_same : (run (regs [(3, 9)]) 0x9330).map State.pc = some 0x202 := by decide
/-- F14. -/
theorem test_sneReg : (run (regs [(1, 0), (2, 0xFF)]) 0x9120).map State.pc = some 0x204 := by decide

/-! ### Register load and ALU (2.3) -/

/-- A1. -/
theorem test_ldImm : regsAfter State.reset 0x6AFF [10] = some ([0xFF], 0x202) := by decide
/-- A2. -/
theorem test_addImm : regsAfter (regs [(10, 0xFF)]) 0x7A01 [10, 15] = some ([0x00, 0], 0x202) := by decide
/-- A3. -/
theorem test_addImm_flag_register : regsAfter (regs [(15, 0xFF)]) 0x7F01 [15] = some ([0x00], 0x202) := by decide
/-- A4. -/
theorem test_ldReg : regsAfter (regs [(1, 0x01), (2, 0x77)]) 0x8120 [1, 2] = some ([0x77, 0x77], 0x202) := by decide
/-- A5. -/
theorem test_orReg : regsAfter (regs [(1, 0xF0), (2, 0x0F), (15, 1)]) 0x8121 [1, 15] = some ([0xFF, 1], 0x202) := by
  decide
/-- A6. -/
theorem test_andReg : regsAfter (regs [(1, 0xF0), (2, 0x3C), (15, 1)]) 0x8122 [1, 15] = some ([0x30, 1], 0x202) := by
  decide
/-- A7. -/
theorem test_xorReg : regsAfter (regs [(1, 0xF0), (2, 0x3C), (15, 1)]) 0x8123 [1, 15] = some ([0xCC, 1], 0x202) := by
  decide
/-- A10: 255 is no carry. -/
theorem test_addReg : regsAfter (regs [(1, 0x80), (2, 0x7F), (15, 1)]) 0x8124 [1, 15] = some ([0xFF, 0], 0x202) := by
  decide
/-- A13: the flag is what `VF` holds. -/
theorem test_addReg_flag_register : regsAfter (regs [(15, 0xF0), (1, 0x20)]) 0x8F14 [15] = some ([0x01], 0x202) := by
  decide
/-- A16. -/
theorem test_sub : regsAfter (regs [(1, 5), (2, 7), (15, 1)]) 0x8125 [1, 15] = some ([0xFE, 0], 0x202) := by decide
/-- A17: strict. -/
theorem test_sub_equal : regsAfter (regs [(1, 5), (2, 5), (15, 1)]) 0x8125 [1, 15] = some ([0x00, 0], 0x202) := by
  decide
/-- A23. -/
theorem test_shr : regsAfter (regs [(1, 0x05), (2, 0xFE)]) 0x8126 [1, 15, 2] = some ([0x02, 1, 0xFE], 0x202) := by decide
/-- A24. -/
theorem test_shr_source_y : regsAfter (shiftingY (regs [(1, 0x05), (2, 0xFE)])) 0x8126 [1, 15] =
    some ([0x7F, 0], 0x202) := by decide
/-- A20. -/
theorem test_subn : regsAfter (regs [(1, 5), (2, 7)]) 0x8127 [1, 15] = some ([0x02, 1], 0x202) := by decide
/-- A22: strict. -/
theorem test_subn_equal : regsAfter (regs [(1, 7), (2, 7), (15, 1)]) 0x8127 [1, 15] = some ([0x00, 0], 0x202) := by
  decide
/-- A27. -/
theorem test_shl : regsAfter (regs [(1, 0x81), (2, 0x01)]) 0x812E [1, 15] = some ([0x02, 1], 0x202) := by decide
/-- A28. -/
theorem test_shl_source_y : regsAfter (shiftingY (regs [(1, 0x81), (2, 0x01)])) 0x812E [1, 15] =
    some ([0x02, 0], 0x202) := by decide

/-! ### Random (2.4) -/

/-- R1. -/
theorem test_rnd : regsAfter (driving 0 0xB7 State.reset) 0xC10F [1] = some ([0x07], 0x202) := by decide
/-- R3. -/
theorem test_rnd_flag_register : regsAfter (driving 0 0xA5 State.reset) 0xCFFF [15] = some ([0xA5], 0x202) := by decide

/-! ### Indexed addressing (2.5) -/

/-- I1. -/
theorem test_ldI : (run State.reset 0xAFFF).map State.i = some 0x0FFF := by decide
/-- I2: wraps at 16 bits. -/
theorem test_addI_wraps : (run { regs [(2, 1)] with i := 0xFFFF } 0xF21E).map (fun t => (t.i, reg t 15)) =
    some (0x0000, 0) := by decide
/-- I3: not at 12. -/
theorem test_addI : (run { regs [(2, 1)] with i := 0x0FFF } 0xF21E).map State.i = some 0x1000 := by decide
/-- I5: the low nibble only. -/
theorem test_ldF : (run { regs [(3, 0x1A)] with i := 0x300 } 0xF329).map State.i = some 0x0032 := by decide
/-- I8. -/
theorem test_ldB : (run (atI 0x300 [9, 9] (regs [(0, 0x07)])) 0xF033).map (fun t => readBytes t 0x300 3) =
    some [0, 0, 7] := by decide
/-- I10: all or nothing. -/
theorem test_ldB_out_of_range :
    (run { regs [(0, 0xFF)] with i := 0xFFE } 0xF033).map (fun t => (t.faultCode, t.faultInfo, readBytes t 0xFFE 2)) =
    some (2, 0x1000, [0, 0]) := by decide
/-- I13. -/
theorem test_ldMemVx : (run { regs [(0, 0x11), (1, 0x22), (2, 0x33), (3, 0x44)] with i := 0x400 } 0xF255).map
    (fun t => (readBytes t 0x400 4, t.i)) = some ([0x11, 0x22, 0x33, 0], 0x400) := by decide
/-- I16: the glyph table is not written. -/
theorem test_ldMemVx_glyph : (run { regs [(0, 0x99)] with i := 0x04F } 0xF055).map
    (fun t => (t.faultCode, t.faultInfo, readByte t 0x04F)) = some (6, 0x04F, 0x80) := by decide
/-- I17: reading the glyph table is legal. -/
theorem test_ldVxMem : regsAfter { State.reset with i := 0x005 } 0xF265 [0, 1, 2, 3] =
    some ([0x20, 0x60, 0x20, 0], 0x202) := by decide
/-- I18. -/
theorem test_ldVxMem_out_of_range : haltOf { State.reset with i := 0xFFF } 0xF165 =
    some (.halted, 2, 0x1000, 0x200) := by decide

/-! ### Timers (2.6) -/

/-- T1. -/
theorem test_ldVxDt : (run { State.reset with dt := 0x3C } 0xF307).map (fun t => (reg t 3, t.dt)) =
    some (0x3C, 0x3B) := by decide
/-- T2. -/
theorem test_ldDtVx : (run (regs [(2, 3)]) 0xF215).map State.dt = some 0x02 := by decide
/-- T3. -/
theorem test_ldDtVx_zero : (run { regs [(2, 0)] with dt := 9 } 0xF215).map State.dt = some 0x00 := by decide
/-- T4. -/
theorem test_ldStVx_one : (run (regs [(2, 1)]) 0xF218).map (fun t => (t.st, sndPort t)) = some (0x00, false) := by decide
/-- T5. -/
theorem test_ldStVx : (run (regs [(2, 5)]) 0xF218).map (fun t => (t.st, sndPort t)) = some (0x04, true) := by decide
/-- T6. -/
theorem test_timers_count : (run { State.reset with dt := 1, st := 0xFF } 0x6000).map (fun t => (t.dt, t.st)) =
    some (0x00, 0xFE) := by decide

/-! ### Input (2.7) -/

/-- K2. -/
theorem test_skp_released : (run (driving 0xFF7F 0 (regs [(4, 7)])) 0xE49E).map State.pc = some 0x202 := by decide
/-- K5. -/
theorem test_skp_no_such_key : haltOf (driving 0xFFFF 0 (regs [(4, 0x10)])) 0xE49E =
    some (.halted, 7, 0x0010, 0x200) := by decide
/-- K3. -/
theorem test_sknp : (run (driving 0 0 (regs [(4, 7)])) 0xE4A1).map State.pc = some 0x204 := by decide
/-- K4. -/
theorem test_sknp_pressed : (run (driving 0x0080 0 (regs [(4, 7)])) 0xE4A1).map State.pc = some 0x202 := by decide
/-- K7. -/
theorem test_ldVxK_parks : (run (driving 0 0 { State.reset with dt := 10 }) 0xF50A).map
    (fun t => (t.engine, t.pc, reg t 5, t.dt)) = some (.awaitingKey, 0x200, 0, 10) := by decide
/-- K8, from the parked engine. -/
theorem test_ldVxK : (run (driving 0x0280 0 { State.reset with dt := 10, engine := .awaitingKey }) 0xF50A).map
    (fun t => (t.engine, t.pc, reg t 5, t.dt)) = some (.running, 0x202, 7, 9) := by decide

/-! ### Display (2.8) -/

/-- D1: wraps per pixel. -/
theorem test_drw : (run (atI 0x300 [0xC0] (regs [(0, 63), (1, 31)])) 0xD011).map
    (fun t => (pixel t 63 31, pixel t 0 31, t.fb.length, reg t 15)) = some (true, true, 2, 0) := by decide
/-- D11: a screen of 4 by 2, where a row reaches each pixel twice. -/
theorem test_drw_small_screen :
    (run { atI 0x300 [0xFF] (regs [(0, 3)]) with cfg := { defaultConfig with fbW := 4, fbH := 2 } } 0xD011).map
      (fun t => (t.fb, reg t 15)) = some ([], 1) := by decide
/-- D10: `VF` is not written. -/
theorem test_cls : (run { regs [(15, 1)] with fb := [0, 2047] } 0x00E0).map (fun t => (t.fb, reg t 15)) =
    some ([], 1) := by decide

/-! ### Witnesses: concrete states that meet the hypotheses of each obligation, clause by clause -/

/-- The reset state about to fetch `w`. -/
def fetching (w : Nat) (s : State) : State := s.withFetchWord 16 w

theorem witness_ReencodingKeepsEveryExaminedBit :
    decode 0x0AE0 = .instr .cls ∧ decode 0x5127 = .instr (.seReg 1 2) ∧ decode 0x9127 = .instr (.sneReg 1 2) ∧
      decode 0x8126 = .instr (.shr 1 2) := by decide

theorem witness_StepRunsTheDecodedInstruction :
    Fetches (fetching 0x6AFF State.reset) (.ldImm 10 0xFF) ∧
      ∃ u, exec (.ldImm 10 0xFF) (fetching 0x6AFF State.reset) = .next u :=
  ⟨by unfold Fetches; decide, _, rfl⟩

theorem witness_StepRunsTheDecodedInstruction_fault :
    Fetches (fetching 0x2300 { State.reset with sp := 17 }) (.call 0x300) ∧
      exec (.call 0x300) (fetching 0x2300 { State.reset with sp := 17 }) = .fault .stackPointerInvalid :=
  ⟨by unfold Fetches; decide, rfl⟩

/-- Each clause at the ends of its range: above 0xFFF, at 0xFFF, odd below it, even below it. -/
theorem witness_FetchChecksRangeThenAlignment :
    ({ State.reset with pc := 0x1000 } : State).engine ≠ .halted ∧ 0xFFF < (0x1000 : Word).toNat ∧
      0xFFF < (0xFFFF : Word).toNat ∧ (0x001 : Word).getLsbD 0 = true ∧ (0xFFD : Word).toNat < 0xFFF ∧
      (0xFFD : Word).getLsbD 0 = true ∧ (0xFFE : Word).toNat < 0xFFF ∧ (0xFFE : Word).getLsbD 0 = false ∧
      decode (wordAtPc (fetching 0x00E0 { State.reset with pc := 0xFFE })) = .instr .cls := by decide

theorem witness_UndefinedWordHaltsTheEngine :
    State.reset.engine ≠ .halted ∧ State.reset.pc.toNat + 1 ≤ 0xFFF ∧ State.reset.pc.getLsbD 0 = false ∧
      ∀ i, decode (wordAtPc State.reset) ≠ .instr i :=
  ⟨by decide, by decide, by decide, fun i h => by
    rw [show decode (wordAtPc State.reset) = .undefinedWord 0 by decide] at h
    cases h⟩

theorem witness_HaltedCycleChangesNothing : ({ State.reset with engine := .halted } : State).engine = .halted := rfl

theorem witness_EveryHaltIsPrecise :
    State.reset.engine ≠ .halted ∧ (run State.reset 0x0000).map State.engine = some .halted := by decide

theorem witness_EveryCycleCompletes : ({ State.reset with sp := 16 } : State).sp.toNat ≤ 16 := by decide

/-- 17 and 31 are the ends of the range that stops; 16 does not. -/
theorem witness_OnlyAnInvalidStackPointerStops :
    exec .ret { State.reset with sp := 17 } = .fault .stackPointerInvalid ∧
      exec (.call 0) { State.reset with sp := 31 } = .fault .stackPointerInvalid ∧
      (run { State.reset with sp := 16 } 0x00EE).map State.sp = some 15 := ⟨rfl, rfl, by decide⟩

/-- A state that is not the reset state meets the invariant, and a cycle leads on from it. -/
theorem witness_InvariantKeptByEveryCycle :
    State.Inv (fetching 0x6AFF { State.reset with sp := 16, fb := [0, 2047] }) ∧
      (run { State.reset with sp := 16, fb := [0, 2047] } 0x6AFF).map State.pc = some 0x202 :=
  ⟨⟨by decide, by decide, by unfold GlyphTableIntact; decide, by decide, by decide, by unfold FaultRegsFit; decide⟩,
    by decide⟩

theorem witness_InvariantHoldsAtReset : defaultConfig.wellFormed = true := by decide

theorem witness_OnlyTheKeyLoadParks :
    (run (driving 0 0 State.reset) 0xF00A).map State.engine = some .awaitingKey := by decide

theorem witness_NoCycleChanges : ∃ t, step State.reset = .next t := ⟨_, rfl⟩

/-- Every clause: a halting cycle, and completed cycles of FX15, of FX18 and of neither. -/
theorem witness_TimersCountDownOncePerCompletedCycle :
    (run State.reset 0x0000).map State.engine = some .halted ∧
      (run State.reset 0xF215).map State.engine = some .running ∧
      (run State.reset 0xF218).map State.engine = some .running ∧
      (run State.reset 0x6000).map State.engine = some .running := by decide

theorem witness_SoundPortAfterSettingTheSoundTimer :
    Fetches (fetching 0xF218 (regs [(2, 2)])) (.ldStVx 2) := by unfold Fetches; decide

/-- A completed cycle, a halting one, a parking one, and one spent in `Halted`. -/
theorem witness_ProgramCounterAfterEachCycle :
    (run State.reset 0x1ABC).map State.engine = some .running ∧
      (run State.reset 0x00EE).map State.engine = some .halted ∧
      (run (driving 0 0 State.reset) 0xF00A).map State.engine = some .awaitingKey ∧
      (run { State.reset with engine := .halted } 0x1ABC).map State.pc = some 0x200 := by decide

/-- For the whole-machine rules: an instruction that completes, one that faults, and one that parks. -/
theorem witness_exec_outcomes :
    (∃ t, exec .cls State.reset = .next t ∧ t.engine = .running) ∧
      (∃ t, exec .ret State.reset = .next t ∧ t.engine = .halted) ∧
      (∃ t, exec (.ldVxK 0) (driving 0 0 State.reset) = .next t ∧ t.engine = .awaitingKey) ∧
      exec .ret { State.reset with sp := 17 } = .fault .stackPointerInvalid :=
  ⟨⟨_, rfl, rfl⟩, ⟨_, rfl, rfl⟩, ⟨_, rfl, rfl⟩, rfl⟩

/-- The sizes where the clauses meet, and a machine that is not freshly reset. -/
theorem witness_ProgramLoadCopiesTheImageOrRefuses :
    State.reset = hostReset State.reset ∧ (List.replicate 3584 (0 : Byte)).length ≤ 3584 ∧
      3584 < (List.replicate 3585 (0 : Byte)).length ∧
      ({ State.reset with dt := 1 } : State) ≠ hostReset { State.reset with dt := 1 } := by
  exact ⟨by decide, by rw [List.length_replicate], by rw [List.length_replicate]; decide, by decide⟩

/-- The two sides of 0x200, after a first byte was loaded, and a machine that has run. -/
theorem witness_LoadPortWritesOneByteOrRefuses :
    (fun s : State => ({ s with mem := [] } : State) = hostReset s) (storeBytes 0x200 [0x12] State.reset) ∧
      0x200 ≤ (0x200 : Addr12).toNat ∧ (0x1FF : Addr12).toNat < 0x200 ∧
      (fun s : State => ({ s with mem := [] } : State) ≠ hostReset s) { State.reset with pc := 0x202 } := by decide

theorem witness_HostOperationsKeepTheInvariant :
    State.reset.cfg.wellFormed = true ∧ (∃ t, hostLoad [0x12, 0x06] State.reset = .next t) ∧
      (∃ t, loadPort 0x200 0x12 State.reset = .next t) ∧ State.Inv (fetching 0x00E0 State.reset) ∧
      (∃ t, loadPort 0xFFF 1 (fetching 0x00E0 State.reset) = .next t) :=
  ⟨by decide, ⟨_, rfl⟩, ⟨_, rfl⟩,
    ⟨by decide, by decide, by unfold GlyphTableIntact; decide, by decide, by decide, by unfold FaultRegsFit; decide⟩,
    ⟨_, rfl⟩⟩

theorem witness_CanonicalMemoriesWithEqualReadsAreEqual :
    Memory.wf defaultGlyphRom [(0x300, 1)] = true ∧
      Memory.wf defaultGlyphRom (Memory.write defaultGlyphRom [] 0x300 1) = true ∧
      ∀ a, Memory.read defaultGlyphRom [(0x300, 1)] a =
        Memory.read defaultGlyphRom (Memory.write defaultGlyphRom [] 0x300 1) a :=
  ⟨by decide, by decide, fun a => by
    rw [show Memory.write defaultGlyphRom [] 0x300 1 = [(0x300, 1)] by decide]⟩

/-- `X = 0` and the last word of memory. -/
theorem witness_StoreToTheNextInstructionIsFetched :
    (fun s : State => s.i = s.pc + 2 ∧ 0x050 ≤ s.i.toNat ∧ s.i.toNat + (1 : RegIdx).val ≤ 0xFFF)
      { State.reset with pc := 0xFFC, i := 0xFFE } ∧
    (fun s : State => s.i = s.pc + 2 ∧ 0x050 ≤ s.i.toNat ∧ s.i.toNat + (0 : RegIdx).val ≤ 0xFFF)
      { State.reset with pc := 0x04E, i := 0x050 } := by decide

theorem witness_CallPushesItsOwnAddress : ({ State.reset with sp := 15 } : State).sp.toNat < 16 := by decide

theorem witness_ReturnGoesOnAfterTheCall :
    (fun s : State => 0 < s.sp.toNat ∧ s.sp.toNat ≤ 16) { State.reset with sp := 1 } ∧
      (fun s : State => 0 < s.sp.toNat ∧ s.sp.toNat ≤ 16) { State.reset with sp := 16 } := by decide

theorem witness_StackOverflowAndUnderflowFault :
    ({ State.reset with sp := 16 } : State).sp = 16 ∧ State.reset.sp = 0 := by decide

theorem witness_CallThenReturnComesBack : State.reset.sp.toNat < 16 := by decide

theorem witness_LoadImmediateLoadsTheByte : (0x6AFF : Word) &&& 0xF000 = 0x6000 := by decide

/-- The clauses of the flag-setting instructions that ask for a destination other than `VF`. -/
theorem witness_destination_is_not_the_flag : (1 : RegIdx) ≠ flagReg := by decide

theorem witness_GlyphAddressPointsAtTheGlyph : GlyphTableIntact (regs [(3, 0xFF)]) := by
  unfold GlyphTableIntact; decide

theorem witness_DecimalDigitsAreStored :
    (fun s : State => 0x050 ≤ s.i.toNat ∧ s.i.toNat + 2 ≤ 0xFFF) { State.reset with i := 0x050 } ∧
      (fun s : State => 0x050 ≤ s.i.toNat ∧ s.i.toNat + 2 ≤ 0xFFF) { State.reset with i := 0xFFD } := by decide

theorem witness_RegistersAreStoredInOrder :
    (fun s : State => 0x050 ≤ s.i.toNat ∧ s.i.toNat + (15 : RegIdx).val ≤ 0xFFF) { State.reset with i := 0xFF0 } ∧
      (fun s : State => 0x050 ≤ s.i.toNat ∧ s.i.toNat + (0 : RegIdx).val ≤ 0xFFF) { State.reset with i := 0x050 } := by
  decide

theorem witness_RegistersAreLoadedInOrder :
    ({ State.reset with i := 0xFF0 } : State).i.toNat + (15 : RegIdx).val ≤ 0xFFF ∧
      (2 : RegIdx) ≤ 2 ∧ (2 : RegIdx) < 3 := by decide

/-- Each clause at the boundary of its range: 0x04F; 0xFFE for three bytes; 0xFFF for two; 0x1000 and 0xFFFF for one. -/
theorem witness_DataAccessFaultsAtTheLowestAddress :
    ({ State.reset with i := 0x04F } : State).i.toNat ≤ 0x04F ∧
      0xFFF < ({ State.reset with i := 0xFFE } : State).i.toNat + 2 ∧
      0xFFF < ({ State.reset with i := 0xFFF } : State).i.toNat + (1 : RegIdx).val ∧
      0xFFF < ({ State.reset with i := 0xFFFF } : State).i.toNat + (0 : RegIdx).val ∧
      1 ≤ (1 : Fin 16).val ∧ 0xFFF < ({ State.reset with i := 0x1000 } : State).i.toNat + ((1 : Fin 16).val - 1) := by
  decide

theorem witness_KeySkipsTestTheNamedKey : (reg (driving 0x8000 0 (regs [(4, 15)])) 4).toNat ≤ 15 := by decide

theorem witness_KeyIndexAboveFifteenFaults :
    15 < (reg (regs [(4, 16)]) 4).toNat ∧ 15 < (reg (regs [(4, 255)]) 4).toNat := by decide

/-- Keys 7 and 9, and the two ends of the range. -/
theorem witness_KeyLoadStoresTheLowestPressedKey :
    (∀ p ∈ [((0x0280 : BitVec 16), 7), (0xFFFF, 0), (0x8000, 15)], p.2 < 16 ∧
      (keys (driving p.1 0 State.reset)).getLsbD p.2 = true ∧
      ∀ j, j < p.2 → (keys (driving p.1 0 State.reset)).getLsbD j = false) := by decide

theorem witness_KeyLoadParksWithoutAKey : ∀ k, k < 16 → (keys (driving 0 0 State.reset)).getLsbD k = false := by decide

/-- `N = 0` with `I` out of range, `N = 15` up to the last byte, a screen of one pixel; a pixel of either colour. -/
theorem witness_DrawFlipsPixelsAndReportsCollision :
    (fun (s : State) (n : Fin 16) => 1 ≤ s.cfg.fbW ∧ 1 ≤ s.cfg.fbH ∧ (n = 0 ∨ s.i.toNat + (n.val - 1) ≤ 0xFFF))
      { State.reset with i := 0xFFFF } 0 ∧
    (fun (s : State) (n : Fin 16) => 1 ≤ s.cfg.fbW ∧ 1 ≤ s.cfg.fbH ∧ (n = 0 ∨ s.i.toNat + (n.val - 1) ≤ 0xFFF))
      { State.reset with i := 0xFF1, cfg := { defaultConfig with fbW := 1, fbH := 1 } } 15 ∧
    spriteHits { State.reset with cfg := { defaultConfig with fbW := 1, fbH := 1 } } 0 0 1 0 0 = 4 ∧
    (pixel { State.reset with fb := [0] } 0 0 = true ∧ spriteHits { State.reset with fb := [0] } 0 0 1 0 0 = 1) ∧
    (pixel State.reset 0 0 = false ∧ spriteHits State.reset 0 0 0 0 0 = 0) := by decide

/-- A screen of exactly 8 by 15 with a clear target, drawn on twice with glyph 0's first row. -/
theorem witness_DrawingTwiceRestoresTheScreen :
    (fun s : State => s.cfg.fbW = 8 ∧ s.cfg.fbH = 15 ∧ spriteHits s 0 1 1 0 0 = 1 ∧ s.fb = [] ∧
      ∃ t u, exec (.drw 0 1 1) s = .next t ∧ t.engine = .running ∧ exec (.drw 0 1 1) { t with v := s.v } = .next u)
      { State.reset with cfg := { defaultConfig with fbW := 8, fbH := 15 } } :=
  ⟨rfl, rfl, by decide, rfl, _, _, rfl, rfl, rfl⟩

theorem witness_ClearScreenZeroesEveryPixel : (0x0AE0 : Word) &&& 0xF0FF = 0x00E0 := by decide

end Sys2Proof.Tests
end

section
/-! SUPPORT. What `exec` can answer, said once: an inversion of all 34 arms, by the shape of the state they leave. -/

namespace Sys2Proof.Machine

/-- `Executed s i t`: execution of `i` from `s` (before the timer phase) can leave `t`. One constructor per shape of the
state left, with the checks that were passed and the instructions that write what it writes. What a destination register,
`I` or the `pc` of a skip or jump receives is left open. -/
inductive Executed (s : State) : Instr → State → Prop where
  /-- Fault entry (R222), with a fault of the instruction's row in R224. -/
  | faulted {i : Instr} (c : FaultCause) (info : Word) (hc : c ∈ faultsAtExecution i) :
      Executed s i (enterFault c info s)
  /-- FX0A with no key pressed (R193). -/
  | parked (x : RegIdx) (hk : keys s = 0) : Executed s (.ldVxK x) (park s)
  /-- One general register (R22). -/
  | wroteReg {i : Instr} (x : RegIdx) (b : Byte) (hi : registersWritten i = [x]) :
      Executed s i (advance (writeReg x b s))
  /-- One general register, then `VF` (R141). -/
  | wroteRegAndFlag {i : Instr} (x : RegIdx) (b f : Byte) (hi : registersWritten i = [x, flagReg]) :
      Executed s i (advance (writeResultAndFlag x b f s))
  /-- FX65 (R170). -/
  | loadedRegs (x : RegIdx) : Executed s (.ldVxMem x) (advance (writeRegs (regsLoaded s x) s))
  /-- The six skips (R103). -/
  | skipped {i : Instr} (test : Bool) : Executed s i (skipIf test s)
  /-- 1NNN and BNNN (R120, R121). -/
  | jumped {i : Instr} (a : Word) (hi : ∃ nnn, i = .jp nnn ∨ i = .jpV0 nnn) : Executed s i (jump a s)
  /-- 2NNN with room on the stack (R122). -/
  | called (nnn : Addr12) (h : s.sp.toNat < 16) :
      Executed s (.call nnn)
        (jump (addrImm nnn) { s with stack := s.stack.set s.sp.toNat s.pc h, sp := s.sp + 1 })
  /-- 00EE with an entry on the stack (R123). -/
  | returned (a : Word) (h : s.sp ≠ 0) (ha : s.stack[s.sp.toNat - 1]? = some a) :
      Executed s .ret (jump (a + 2) { s with sp := s.sp - 1 })
  /-- ANNN, FX1E and FX29 (R165 to R167). -/
  | wroteI {i : Instr} (a : Word) (hi : (∃ nnn, i = .ldI nnn) ∨ ∃ x, i = .addI x ∨ i = .ldF x) :
      Executed s i (advance (writeI a s))
  /-- FX15 (R181). -/
  | wroteDt (x : RegIdx) : Executed s (.ldDtVx x) (advance (writeDt (reg s x) s))
  /-- FX18 (R182). -/
  | wroteSt (x : RegIdx) : Executed s (.ldStVx x) (advance (writeSt (reg s x) s))
  /-- FX33 and FX55, every address having passed R64's checks (R69). -/
  | stored {i : Instr} (bytes : List Byte) (hi : ∃ x, i = .ldB x ∨ i = .ldMemVx x) (hlo : 0x050 ≤ baseAddr s)
      (hhi : baseAddr s + bytes.length ≤ memSize) : Executed s i (advance (storeBytes (baseAddr s) bytes s))
  /-- 00E0 (R202). -/
  | cleared : Executed s .cls (advance (clearScreen s))
  /-- DXYN, every row's address having passed (R201). -/
  | drew (x y : RegIdx) (n : Fin 16) :
      Executed s (.drw x y n)
        (advance (writeReg flagReg (collisionFlag (drawn x y n s).2) (writeScreen (drawn x y n s).1 s)))

/-! #### The faults of the address checks -/

theorem readFault_eq_some {a : Nat} {c : FaultCause} (h : readFault a = some c) : c = .addressOutOfRange := by
  unfold readFault at h
  split at h
  · exact (Option.some.inj h).symm
  · cases h

theorem writeFault_eq_some {a : Nat} {c : FaultCause} (h : writeFault a = some c) :
    c = .addressOutOfRange ∨ c = .glyphTableWrite := by
  unfold writeFault at h
  split at h
  · exact .inl (Option.some.inj h).symm
  · split at h
    · exact .inr (Option.some.inj h).symm
    · cases h

/-! #### One inversion per instruction or shared operation that checks before it acts -/

variable {s t : State}

/-- FX33 and FX55 store at least one byte. -/
theorem storeAtI_executed {i : Instr} {bytes : List Byte} (x : RegIdx) (hi : i = .ldB x ∨ i = .ldMemVx x)
    (hne : 0 < bytes.length) (h : storeAtI bytes s = .next t) : Executed s i t := by
  rcases storeAtI_cases bytes s with ⟨c, a, hf, he⟩ | ⟨hf, he⟩
  · obtain ⟨_, _, _, hc, _⟩ := firstFailing_eq_some hf
    cases he.symm.trans h
    refine .faulted c _ ?_
    rcases hi with rfl | rfl <;> simpa [faultsAtExecution] using writeFault_eq_some hc
  · obtain ⟨hlo, hhi⟩ := (firstFailing_write_eq_none hne).1 hf
    cases he.symm.trans h
    exact .stored bytes ⟨x, hi⟩ hlo hhi

theorem execDrw_executed {x y : RegIdx} {n : Fin 16} (h : execDrw x y n s = .next t) : Executed s (.drw x y n) t := by
  unfold execDrw at h
  split at h
  · rename_i c a hf
    obtain ⟨k, hk, _, hc, _⟩ := firstFailing_eq_some hf
    have hn : n ≠ 0 := fun e => by simp [e] at hk
    cases h
    exact .faulted c _ (by simp [faultsAtExecution, hn, readFault_eq_some hc])
  · cases h
    exact .drew x y n

theorem execLdVxMem_executed {x : RegIdx} (h : execLdVxMem x s = .next t) : Executed s (.ldVxMem x) t := by
  unfold execLdVxMem at h
  split at h
  · rename_i c a hf
    obtain ⟨_, _, _, hc, _⟩ := firstFailing_eq_some hf
    cases h
    exact .faulted c _ (by simp [faultsAtExecution, readFault_eq_some hc])
  · cases h
    exact .loadedRegs x

theorem execCall_executed {nnn : Addr12} (h : execCall nnn s = .next t) : Executed s (.call nnn) t := by
  unfold execCall at h
  split at h
  · cases h
    exact .faulted _ _ (List.mem_singleton_self _)
  · by_cases hsp : s.sp.toNat < 16
    · rw [pushReturn_of_lt _ hsp] at h
      cases h
      exact .called nnn hsp
    · rw [pushReturn_of_ge _ (Nat.le_of_not_lt hsp)] at h
      cases h

theorem popReturn_eq_some {a : Word} {u : State} (h : popReturn s = some (a, u)) :
    s.stack[s.sp.toNat - 1]? = some a ∧ u = { s with sp := s.sp - 1 } := by
  unfold popReturn at h
  split at h
  · rename_i ha
    cases h
    exact ⟨ha, rfl⟩
  · cases h

theorem execRet_executed (h : execRet s = .next t) : Executed s .ret t := by
  unfold execRet at h
  split at h
  · cases h
    exact .faulted _ _ (List.mem_singleton_self _)
  · rename_i hsp
    split at h
    · rename_i a u hp
      obtain ⟨ha, rfl⟩ := popReturn_eq_some hp
      cases h
      exact .returned a hsp ha
    · cases h

theorem execSkp_executed {x : RegIdx} (h : execSkp x s = .next t) : Executed s (.skp x) t := by
  unfold execSkp at h
  split at h
  · cases h; exact .faulted _ _ (List.mem_singleton_self _)
  · cases h; exact .skipped _

theorem execSknp_executed {x : RegIdx} (h : execSknp x s = .next t) : Executed s (.sknp x) t := by
  unfold execSknp at h
  split at h
  · cases h; exact .faulted _ _ (List.mem_singleton_self _)
  · cases h; exact .skipped _

theorem keyLoad_executed (x : RegIdx) (s : State) : Executed s (.ldVxK x) (keyLoad x s) := by
  unfold keyLoad
  split
  · rename_i hk; exact .parked x (lowestKey_eq_none.1 hk)
  · exact .wroteReg x _ rfl

/-- Every state execution answers has one of the shapes of `Executed`. -/
theorem exec_executed {i : Instr} (h : exec i s = .next t) : Executed s i t := by
  cases i with
  | cls => cases h; exact .cleared
  | ret => exact execRet_executed h
  | call nnn => exact execCall_executed h
  | jp nnn => cases h; exact .jumped _ ⟨nnn, .inl rfl⟩
  | jpV0 nnn => cases h; exact .jumped _ ⟨nnn, .inr rfl⟩
  | seImm x kk | sneImm x kk | seReg x y | sneReg x y => cases h; exact .skipped _
  | skp x => exact execSkp_executed h
  | sknp x => exact execSknp_executed h
  | ldImm x _ | addImm x _ | ldReg x _ | orReg x _ | andReg x _ | xorReg x _ | rnd x _ | ldVxDt x =>
    cases h; exact .wroteReg x _ rfl
  | addReg x y | sub x y | shr x y | subn x y | shl x y => cases h; exact .wroteRegAndFlag x _ _ rfl
  | ldVxK x => cases h; exact keyLoad_executed x s
  | ldI nnn => cases h; exact .wroteI _ (.inl ⟨nnn, rfl⟩)
  | addI x => cases h; exact .wroteI _ (.inr ⟨x, .inl rfl⟩)
  | ldF x => cases h; exact .wroteI _ (.inr ⟨x, .inr rfl⟩)
  | ldDtVx x => cases h; exact .wroteDt x
  | ldStVx x => cases h; exact .wroteSt x
  | ldB x => exact storeAtI_executed x (.inl rfl) (by simp [bcdDigits]) h
  | ldMemVx x => exact storeAtI_executed x (.inr rfl) (by simp [regsUpTo, regCount]) h
  | ldVxMem x => exact execLdVxMem_executed h
  | drw x y n => exact execDrw_executed h

/-- A cycle outside `Halted` ends a fault entry or an executed instruction (R100, R223). -/
theorem step_executed (h : step s = .next t) :
    (s.engine = .halted ∧ t = s) ∨
      (s.engine ≠ .halted ∧ ∃ u, t = endCycle u ∧ ((∃ c info, u = enterFault c info s) ∨ ∃ i, Executed s i u)) := by
  rcases step_cases h with h | ⟨hh, ⟨c, info, -, rfl⟩ | ⟨w, -, -, -, rfl⟩ | ⟨i, u, -, -, -, hx, rfl⟩⟩
  · exact .inl h
  · exact .inr ⟨hh, _, rfl, .inl ⟨c, info, rfl⟩⟩
  · exact .inr ⟨hh, _, rfl, .inl ⟨_, w, rfl⟩⟩
  · exact .inr ⟨hh, u, rfl, .inr ⟨i, exec_executed hx⟩⟩

end Sys2Proof.Machine
end

section
/-! SUPPORT. What execution leaves of each store, from the shapes of `Executed`. -/

namespace Sys2Proof.Machine

variable {s t : State} {i : Instr}

theorem Executed.cfg_eq (h : Executed s i t) : t.cfg = s.cfg := by
  cases h <;> simp

/-- The stores of FX33 and FX55 start above the glyph table (R64). -/
theorem Executed.readByte_glyph (h : Executed s i t) {a : Nat} (ha : a ≤ 0x04F) : readByte t a = readByte s a := by
  cases h with
  | stored bytes hi hlo hhi => exact storeBytes_outside bytes (baseAddr s) s a (.inl (by omega))
  | _ => exact readByte_of_eq (by simp) (by simp) a

theorem Executed.memory_wf (h : Executed s i t) (hs : Memory.wf s.cfg.glyphRom s.mem = true) :
    Memory.wf s.cfg.glyphRom t.mem = true := by
  cases h with
  | stored bytes hi hlo hhi => exact storeBytes_wf bytes (baseAddr s) s hs hhi
  | _ => simpa using hs

/-- A call is executed with `SP` below 16 and a return with `SP` above 0 (R29). -/
theorem Executed.sp_le (h : Executed s i t) (hs : s.sp.toNat ≤ 16) : t.sp.toNat ≤ 16 := by
  cases h with
  | called nnn hlt => simp only [jump_sp]; bv_omega
  | returned a hne ha => simp only [jump_sp]; bv_omega
  | _ => simpa using hs

theorem Executed.screen_wf (h : Executed s i t) (hc : s.cfg.wellFormed = true) (hs : Framebuffer.wf s.cfg s.fb = true) :
    Framebuffer.wf s.cfg t.fb = true := by
  cases h with
  | cleared => rfl
  | drew x y n => exact Framebuffer.wf_xorDots s.cfg _ _ hs (spriteDots_lt s.cfg hc _ _ _)
  | _ => simpa using hs

/-- The codes of R221's table are 1 to 7. -/
theorem faultCodeOf_range (c : FaultCause) : 1 ≤ (faultCodeOf c).toNat ∧ (faultCodeOf c).toNat ≤ 7 := by
  cases c <;> decide

theorem faultRegsFit_enterFault (c : FaultCause) (info : Word) (s : State) : FaultRegsFit (enterFault c info s) := by
  rw [FaultRegsFit, if_pos (enterFault_engine c info s)]
  exact faultCodeOf_range c

theorem faultRegsFit_of_not_halted (h : s.engine ≠ .halted) :
    FaultRegsFit s ↔ s.faultCode = 0 ∧ s.faultInfo = 0 := by
  rw [FaultRegsFit, if_neg h]

theorem Executed.faultRegsFit (h : Executed s i t) (hh : s.engine ≠ .halted) (hs : FaultRegsFit s) : FaultRegsFit t := by
  rw [faultRegsFit_of_not_halted hh] at hs
  cases h with
  | faulted c info hc => exact faultRegsFit_enterFault c info s
  | _ => exact (faultRegsFit_of_not_halted (by simp)).2 (by simpa using hs)

/-! #### The invariant -/

theorem GlyphTableIntact.of_readByte_eq (hs : GlyphTableIntact s) (hc : t.cfg = s.cfg)
    (h : ∀ a, a ≤ 0x04F → readByte t a = readByte s a) : GlyphTableIntact t := by
  intro a
  rw [h a (by omega), hs a, hc]

theorem Executed.inv (h : Executed s i t) (hh : s.engine ≠ .halted) (hs : s.Inv) : t.Inv where
  config := h.cfg_eq ▸ hs.config
  memory := h.cfg_eq ▸ h.memory_wf hs.memory
  glyphs := hs.glyphs.of_readByte_eq h.cfg_eq fun _ ha => h.readByte_glyph ha
  stackPointer := h.sp_le hs.stackPointer
  screen := h.cfg_eq ▸ h.screen_wf hs.config hs.screen
  faultRegs := h.faultRegsFit hh hs.faultRegs

theorem inv_enterFault (hs : s.Inv) (c : FaultCause) (info : Word) : (enterFault c info s).Inv :=
  { hs with faultRegs := faultRegsFit_enterFault c info s }

/-- The timer phase and the sample are no part of the invariant (R240). -/
theorem inv_endCycle (hs : s.Inv) : (endCycle s).Inv where
  config := by simpa using hs.config
  memory := by simpa using hs.memory
  glyphs := hs.glyphs.of_readByte_eq (by simp) fun a _ => readByte_of_eq (by simp) (by simp) a
  stackPointer := by simpa using hs.stackPointer
  screen := by simpa using hs.screen
  faultRegs := by simpa [FaultRegsFit] using hs.faultRegs

end Sys2Proof.Machine
end

section
/-! SUPPORT. Which instructions write which store and which registers (R22, R26 to R34). -/

namespace Sys2Proof.Machine

variable {s t : State} {i : Instr}

theorem Executed.mem_eq (h : Executed s i t) (hi : ∀ x, i ≠ .ldB x ∧ i ≠ .ldMemVx x) : t.mem = s.mem := by
  cases h with
  | stored bytes hx => obtain ⟨x, hx⟩ := hx; exact absurd hx (not_or.2 (hi x))
  | _ => simp

theorem Executed.fb_eq (h : Executed s i t) (hcls : i ≠ .cls) (hdrw : ∀ x y n, i ≠ .drw x y n) : t.fb = s.fb := by
  cases h with
  | cleared => exact absurd rfl hcls
  | drew x y n => exact absurd rfl (hdrw x y n)
  | _ => simp

theorem Executed.stack_eq (h : Executed s i t) (hi : ∀ a, i ≠ .call a) : t.stack = s.stack := by
  cases h with
  | called nnn => exact absurd rfl (hi nnn)
  | _ => simp

theorem Executed.sp_eq (h : Executed s i t) (hret : i ≠ .ret) (hcall : ∀ a, i ≠ .call a) : t.sp = s.sp := by
  cases h with
  | called nnn => exact absurd rfl (hcall nnn)
  | returned => exact absurd rfl hret
  | _ => simp

theorem Executed.i_eq (h : Executed s i t) (himm : ∀ a, i ≠ .ldI a) (hreg : ∀ x, i ≠ .addI x ∧ i ≠ .ldF x) :
    t.i = s.i := by
  cases h with
  | wroteI a hi =>
    rcases hi with ⟨nnn, hi⟩ | ⟨x, hi⟩
    · exact absurd hi (himm nnn)
    · exact absurd hi (not_or.2 (hreg x))
  | _ => simp

theorem Executed.dt_eq (h : Executed s i t) (hi : ∀ x, i ≠ .ldDtVx x) : t.dt = s.dt := by
  cases h with
  | wroteDt x => exact absurd rfl (hi x)
  | _ => simp

theorem Executed.st_eq (h : Executed s i t) (hi : ∀ x, i ≠ .ldStVx x) : t.st = s.st := by
  cases h with
  | wroteSt x => exact absurd rfl (hi x)
  | _ => simp

/-- FX65 keeps the registers above `X` (R170). -/
theorem reg_regsLoaded_of_lt {x r : RegIdx} (h : ¬ r ≤ x) : (regsLoaded s x)[r.val] = reg s r := by
  simp [regsLoaded, h]

theorem Executed.sameRegsBut (h : Executed s i t) : SameRegsBut (registersWritten i) s t := by
  intro r hr
  cases h with
  | wroteReg x b hi => exact (advance_writeReg_frame x b s).1 r (hi ▸ hr)
  | wroteRegAndFlag x b f hi => exact (advance_writeResultAndFlag_frame x b f s).1 r (hi ▸ hr)
  | loadedRegs x => exact reg_regsLoaded_of_lt (by simpa [registersWritten] using hr)
  | drew x y n => exact (advance_writeReg_frame flagReg _ (writeScreen _ s)).1 r hr
  | _ => exact reg_of_v_eq (by simp) r

end Sys2Proof.Machine
end

section
/-! SUPPORT. The load port (R38, R262). -/

namespace Sys2Proof.Machine

theorem beforeFirstCycle_iff {s : State} : beforeFirstCycle s = true ↔ { s with mem := [] } = hostReset s :=
  decide_eq_true_iff

variable {a : Addr12} {b : Byte} {s : State}

theorem loadPort_next (hs : beforeFirstCycle s = true) (ha : progBase ≤ a.toNat) :
    loadPort a b s = .next (writeByte a.toNat b s) := by
  rw [loadPort, if_neg (by simp [hs]), if_neg (Nat.not_lt.2 ha)]

theorem loadPort_below (hs : beforeFirstCycle s = true) (ha : a.toNat < progBase) :
    loadPort a b s = .refused .loadBelowProgram := by
  rw [loadPort, if_neg (by simp [hs]), if_pos ha]

theorem loadPort_outside (hs : beforeFirstCycle s = false) : loadPort a b s = .refused .loadOutsideReset :=
  if_pos hs

end Sys2Proof.Machine
end

section
/-! SUPPORT. The statements of 10_state.md. -/

namespace Sys2Proof.Machine

/-- Settles O13: an executed instruction, a fault entry and the end of the cycle each keep the invariant. -/
theorem invariantKeptByEveryCycle : Obligations.InvariantKeptByEveryCycle := by
  intro s t hs h
  rcases step_executed h with ⟨-, rfl⟩ | ⟨hh, u, rfl, ⟨c, info, rfl⟩ | ⟨i, hx⟩⟩
  · exact hs
  · exact inv_endCycle (inv_enterFault hs c info)
  · exact inv_endCycle (hx.inv hh hs)

/-- Settles O17: only stores write memory, and they start above the glyph table, in every state. -/
theorem noCycleChangesTheGlyphTable : Obligations.NoCycleChangesTheGlyphTable := by
  intro s t h a ha
  rcases step_executed h with ⟨-, rfl⟩ | ⟨-, u, rfl, hu⟩
  · rfl
  · have hend : readByte (endCycle u) a = readByte u a := readByte_of_eq (by simp) (by simp) a
    rw [hend]
    rcases hu with ⟨c, info, rfl⟩ | ⟨i, hx⟩
    · rfl
    · exact hx.readByte_glyph ha

/-- Settles O20, store by store. -/
theorem onlyTheNamedInstructionsWriteEachStore : Obligations.OnlyTheNamedInstructionsWriteEachStore := by
  intro i s t h
  have hx := exec_executed h
  exact ⟨hx.mem_eq, hx.fb_eq, hx.stack_eq, hx.sp_eq, hx.i_eq, hx.dt_eq, hx.st_eq⟩

/-- Settles O21, from the registers each shape of execution writes. -/
theorem onlyDestinationsAndListedFlagsAreWritten : Obligations.OnlyDestinationsAndListedFlagsAreWritten :=
  fun _ _ _ h => (exec_executed h).sameRegsBut

/-- Settles O27: one clause per branch of the port. -/
theorem loadPortWritesOneByteOrRefuses : Obligations.LoadPortWritesOneByteOrRefuses := by
  intro a b s
  refine ⟨fun hs ha => ⟨_, loadPort_next (beforeFirstCycle_iff.2 hs) ha, rfl, ?_, ?_⟩,
    fun hs ha => loadPort_below (beforeFirstCycle_iff.2 hs) ha,
    fun hs => loadPort_outside (Bool.eq_false_iff.2 fun hb => hs (beforeFirstCycle_iff.1 hb))⟩
  · rw [readByte_writeByte, if_pos rfl]
  · exact storeBytes_outside [b] a.toNat s

end Sys2Proof.Machine
end

section
/-! SUPPORT. Data accesses from `I` (R62, R64, R69): the fault of the lowest failing address, and the bytes FX55 stores. -/

namespace Sys2Proof.Machine

variable {s : State} {c : FaultCause} {a : Nat}

/-! #### The lowest failing address (R69) -/

theorem readFault_of_gt (h : 0xFFF < a) : readFault a = some .addressOutOfRange := if_pos h

theorem writeFault_of_gt (h : 0xFFF < a) : writeFault a = some .addressOutOfRange := if_pos h

theorem writeFault_of_le (h : a ≤ 0x04F) : writeFault a = some .glyphTableWrite := by
  rw [writeFault, if_neg (by omega), if_pos h]

/-- An access that reaches past 0xFFF fails at its own start or at 0x1000, whichever is higher, where nothing else stops
it before. -/
theorem firstFailing_outOfRange {check : Nat → Option FaultCause} {n : Nat} (hn : 0 < n) (hend : 0xFFF < a + (n - 1))
    (hout : ∀ {b}, 0xFFF < b → check b = some .addressOutOfRange)
    (hin : ∀ {b}, a ≤ b → b ≤ 0xFFF → check b = none) :
    firstFailing check a n = some (.addressOutOfRange, max a 0x1000) :=
  firstFailing_eq_some_of (max a 0x1000 - a) (by omega) (by omega) (hout (by omega))
    fun _ _ => hin (by omega) (by omega)

theorem firstFailing_read_outOfRange {n : Nat} (hn : 0 < n) (hend : 0xFFF < a + (n - 1)) :
    firstFailing readFault a n = some (.addressOutOfRange, max a 0x1000) :=
  firstFailing_outOfRange hn hend readFault_of_gt fun _ => readFault_eq_none.2

/-- A store that starts above the glyph table can fail only past 0xFFF. -/
theorem firstFailing_write_outOfRange {n : Nat} (hn : 0 < n) (hlo : 0x050 ≤ a) (hend : 0xFFF < a + (n - 1)) :
    firstFailing writeFault a n = some (.addressOutOfRange, max a 0x1000) :=
  firstFailing_outOfRange hn hend writeFault_of_gt fun hab hb => writeFault_eq_none.2 ⟨by omega, hb⟩

theorem firstFailing_write_glyphTable {n : Nat} (hn : 0 < n) (ha : a ≤ 0x04F) :
    firstFailing writeFault a n = some (.glyphTableWrite, a) :=
  firstFailing_eq_some_of 0 hn rfl (writeFault_of_le ha) fun _ hj => absurd hj (Nat.not_lt_zero _)

/-- The lowest address out of range as `FAULT_INFO` holds it. -/
theorem ofNat_max_outOfRange (w : Word) :
    BitVec.ofNat 16 (max w.toNat 0x1000) = if 0xFFF < w.toNat then w else 0x1000 := by
  split
  · rw [Nat.max_eq_left (by omega), BitVec.ofNat_toNat, BitVec.setWidth_eq]
  · rw [Nat.max_eq_right (by omega)]; rfl

/-! #### An access raises what its check reports -/

theorem storeAtI_of_failing {bytes : List Byte} (h : firstFailing writeFault (baseAddr s) bytes.length = some (c, a)) :
    storeAtI bytes s = raise c (BitVec.ofNat 16 a) s := by
  rw [storeAtI, h]

theorem execLdVxMem_of_failing {x : RegIdx} (h : firstFailing readFault (baseAddr s) (regCount x) = some (c, a)) :
    execLdVxMem x s = raise c (BitVec.ofNat 16 a) s := by
  rw [execLdVxMem, h]

theorem execDrw_of_failing {x y : RegIdx} {n : Fin 16} (h : firstFailing readFault (baseAddr s) n.val = some (c, a)) :
    execDrw x y n s = raise c (BitVec.ofNat 16 a) s := by
  rw [execDrw, h]

theorem storeAtI_outOfRange {bytes : List Byte} (hne : 0 < bytes.length) (hlo : 0x050 ≤ s.i.toNat)
    (hend : 0xFFF < s.i.toNat + (bytes.length - 1)) :
    storeAtI bytes s = raise .addressOutOfRange (if 0xFFF < s.i.toNat then s.i else 0x1000) s := by
  rw [storeAtI_of_failing (firstFailing_write_outOfRange hne hlo hend), baseAddr, ofNat_max_outOfRange]

theorem storeAtI_glyphTable {bytes : List Byte} (hne : 0 < bytes.length) (h : s.i.toNat ≤ 0x04F) :
    storeAtI bytes s = raise .glyphTableWrite s.i s := by
  rw [storeAtI_of_failing (firstFailing_write_glyphTable hne h), baseAddr, BitVec.ofNat_toNat, BitVec.setWidth_eq]

theorem execLdVxMem_outOfRange {x : RegIdx} (hend : 0xFFF < s.i.toNat + x.val) :
    execLdVxMem x s = raise .addressOutOfRange (if 0xFFF < s.i.toNat then s.i else 0x1000) s := by
  rw [execLdVxMem_of_failing (firstFailing_read_outOfRange (Nat.succ_pos _) hend), baseAddr, ofNat_max_outOfRange]

theorem execDrw_outOfRange {x y : RegIdx} {n : Fin 16} (hn : 1 ≤ n.val) (hend : 0xFFF < s.i.toNat + (n.val - 1)) :
    execDrw x y n s = raise .addressOutOfRange (if 0xFFF < s.i.toNat then s.i else 0x1000) s := by
  rw [execDrw_of_failing (firstFailing_read_outOfRange hn hend), baseAddr, ofNat_max_outOfRange]

/-- An instruction that raises a fault enters it and changes nothing else (R222). -/
theorem faulted_of_exec_eq_raise {i : Instr} {info : Word} (h : exec i s = raise c info s) :
    ∃ t, exec i s = .next t ∧ Faulted c info s t ∧ SameSamples s t :=
  ⟨_, h, enterFault_faulted c info s⟩

/-! #### A store in range -/

/-- A store above the glyph table and in range completes (R64). -/
theorem storeAtI_inRange {bytes : List Byte} (hne : 0 < bytes.length) (hlo : 0x050 ≤ s.i.toNat)
    (hhi : s.i.toNat + bytes.length ≤ 0x1000) :
    storeAtI bytes s = .next (advance (storeBytes s.i.toNat bytes s)) := by
  rw [storeAtI, baseAddr, (firstFailing_write_eq_none hne).2 ⟨hlo, hhi⟩]

theorem readByte_advance (s : State) (a : Nat) : readByte (advance s) a = readByte s a := rfl

theorem length_bcdDigits (b : Byte) : (bcdDigits b).length = 3 := rfl

theorem length_regsUpTo (s : State) (x : RegIdx) : (regsUpTo s x).length = x.val + 1 := by
  simp [regsUpTo, regCount]

/-- The bytes FX55 stores are the registers up to `X`, in order (R169). -/
theorem regsUpTo_getElem? (s : State) (x r : RegIdx) :
    (regsUpTo s x)[r.val]? = if r ≤ x then some (reg s r) else none := by
  have hreg : s.v.toList[r.val]? = some (reg s r) := by simp [reg]
  rw [regsUpTo, regCount, List.getElem?_take, hreg]
  simp only [Nat.lt_succ_iff, Fin.le_def]

/-- What each byte from `a` up reads as after FX55's stores: a register up to `X`, else what stood there. -/
theorem readByte_storeBytes_regsUpTo (s : State) (a : Nat) (x r : RegIdx) :
    readByte (storeBytes a (regsUpTo s x) s) (a + r.val) = if r ≤ x then reg s r else readByte s (a + r.val) := by
  rw [readByte_storeBytes, if_pos (Nat.le_add_right ..), Nat.add_sub_cancel_left, regsUpTo_getElem?]
  split <;> rfl

end Sys2Proof.Machine
end

section
/-! SUPPORT. The statements of 20_memory.md. -/

namespace Sys2Proof.Machine

/-- Settles O30: FX55 leaves `pc` at `I`, so the new word at `pc` is `V[0]` and the byte above it, which
is stored too unless `X` is 0. -/
theorem storeToTheNextInstructionIsFetched : Obligations.StoreToTheNextInstructionIsFetched := by
  intro s x hpc hlo hhi
  have hlen := length_regsUpTo s x
  have hnew : (advance (storeBytes s.i.toNat (regsUpTo s x) s)).pc = s.i := by simp [hpc]
  refine ⟨_, storeAtI_inRange (by omega) hlo (by omega), hnew, ?_⟩
  have hhigh : readByte (storeBytes s.i.toNat (regsUpTo s x) s) s.i.toNat = reg s 0 :=
    (readByte_storeBytes_regsUpTo s s.i.toNat x 0).trans (if_pos (Fin.zero_le x))
  have hlow : readByte (storeBytes s.i.toNat (regsUpTo s x) s) (s.i.toNat + 1) =
      if 1 ≤ x then reg s 1 else readByte s (s.i.toNat + 1) := readByte_storeBytes_regsUpTo s s.i.toNat x 1
  have hx : 1 ≤ x ↔ ¬x = 0 := Fin.pos_iff_ne_zero
  rw [wordAtPc, hnew, readByte_advance, readByte_advance, hhigh, hlow]
  simp only [hx, ite_not]

/-- Settles O49: each clause is the fault that the instruction's address check reports first. An access of at most 16 bytes
that reaches past 0xFFF starts above the glyph table, so no clause meets the other. -/
theorem dataAccessFaultsAtTheLowestAddress : Obligations.DataAccessFaultsAtTheLowestAddress := by
  intro s x y n info
  have hbcd := length_bcdDigits (reg s x)
  have hregs := length_regsUpTo s x
  refine ⟨fun hglyph => ⟨?_, ?_⟩, fun hend => ?_, fun hend => ⟨?_, ?_⟩, fun hn hend => ?_⟩
  · exact faulted_of_exec_eq_raise (i := .ldB x) (storeAtI_glyphTable (by omega) hglyph)
  · exact faulted_of_exec_eq_raise (i := .ldMemVx x) (storeAtI_glyphTable (by omega) hglyph)
  · exact faulted_of_exec_eq_raise (i := .ldB x) (storeAtI_outOfRange (by omega) (by omega) (by omega))
  · exact faulted_of_exec_eq_raise (i := .ldMemVx x) (storeAtI_outOfRange (by omega) (by omega) (by omega))
  · exact faulted_of_exec_eq_raise (i := .ldVxMem x) (execLdVxMem_outOfRange hend)
  · exact faulted_of_exec_eq_raise (i := .drw x y n) (execDrw_outOfRange hn hend)

end Sys2Proof.Machine
end

section
/-! SUPPORT. Words and their fields (R91, R92): a word is put together again from its fields, and each mask of the opcode
map (R106) keeps the fields its rows examine and clears the others. -/

namespace Sys2Proof

/-! #### A word from its fields -/

theorem encodeA_fields (w : Word) : encodeA (fieldOp w) (fieldNNN w) = w := by
  show (w.extractLsb' 12 4 ++ w.extractLsb' 0 12 : BitVec (4 + 12)) = w
  simp only [BitVec.extractLsb'_append_extractLsb'_eq_extractLsb', BitVec.extractLsb'_eq_self]

theorem encodeXK_fields (w : Word) : encodeXK (fieldOp w) (fieldX w) (fieldKK w) = w := by
  show (w.extractLsb' 12 4 ++ w.extractLsb' 8 4 ++ w.extractLsb' 0 8 : BitVec (4 + 4 + 8)) = w
  simp only [BitVec.extractLsb'_append_extractLsb'_eq_extractLsb', BitVec.extractLsb'_eq_self]

theorem encodeXYN_fields (w : Word) : encodeXYN (fieldOp w) (fieldX w) (fieldY w) (fieldN w) = w := by
  show (w.extractLsb' 12 4 ++ w.extractLsb' 8 4 ++ w.extractLsb' 4 4 ++ w.extractLsb' 0 4 : BitVec (4 + 4 + 4 + 4)) = w
  simp only [BitVec.extractLsb'_append_extractLsb'_eq_extractLsb', BitVec.extractLsb'_eq_self]

theorem ofFin_fieldRows (w : Word) : (BitVec.ofFin (fieldRows w) : BitVec 4) = fieldN w := rfl

/-! #### What a mask keeps -/

theorem encodeA_and_op (op : BitVec 4) (nnn : Addr12) : encodeA op nnn &&& 0xF000 = encodeA op 0 := by
  show (op ++ nnn &&& BitVec.allOnes 4 ++ 0#12 : BitVec (4 + 12)) = op ++ 0#12
  simp only [BitVec.and_append, BitVec.and_zero, BitVec.and_allOnes]

theorem encodeXK_and_op_kk (op : BitVec 4) (x : RegIdx) (kk : Byte) :
    encodeXK op x kk &&& 0xF0FF = encodeXK op 0 kk := by
  show (op ++ BitVec.ofFin x ++ kk &&& BitVec.allOnes 4 ++ 0#4 ++ BitVec.allOnes 8 : BitVec (4 + 4 + 8)) =
    op ++ 0#4 ++ kk
  simp only [BitVec.and_append, BitVec.and_zero, BitVec.and_allOnes]

theorem encodeXYN_and_op_n (op : BitVec 4) (x y : RegIdx) (n : BitVec 4) :
    encodeXYN op x y n &&& 0xF00F = encodeXYN op 0 0 n := by
  show (op ++ (BitVec.ofFin x : BitVec 4) ++ (BitVec.ofFin y : BitVec 4) ++ n &&&
    BitVec.allOnes 4 ++ 0#4 ++ 0#4 ++ BitVec.allOnes 4 : BitVec (4 + 4 + 4 + 4)) = op ++ 0#4 ++ 0#4 ++ n
  simp only [BitVec.and_append, BitVec.and_zero, BitVec.and_allOnes]

theorem encodeXYN_and_op_xy (op : BitVec 4) (x y : RegIdx) (n : BitVec 4) :
    encodeXYN op x y n &&& 0xFFF0 = encodeXYN op x y 0 := by
  show (op ++ (BitVec.ofFin x : BitVec 4) ++ (BitVec.ofFin y : BitVec 4) ++ n &&&
    BitVec.allOnes 4 ++ BitVec.allOnes 4 ++ BitVec.allOnes 4 ++ 0#4 : BitVec (4 + 4 + 4 + 4)) =
    op ++ (BitVec.ofFin x : BitVec 4) ++ (BitVec.ofFin y : BitVec 4) ++ 0#4
  simp only [BitVec.and_append, BitVec.and_zero, BitVec.and_allOnes]

/-! #### A word matches a row exactly when its fields are the row's -/

theorem and_op_eq_iff {w : Word} {op : BitVec 4} : w &&& 0xF000 = encodeA op 0 ↔ fieldOp w = op := by
  conv_lhs => rw [← encodeA_fields w, encodeA_and_op]
  exact ⟨fun h => by simpa only [fieldOp_encodeA] using congrArg fieldOp h, fun h => by rw [h]⟩

theorem and_op_kk_eq_iff {w : Word} {op : BitVec 4} {kk : Byte} :
    w &&& 0xF0FF = encodeXK op 0 kk ↔ fieldOp w = op ∧ fieldKK w = kk := by
  conv_lhs => rw [← encodeXK_fields w, encodeXK_and_op_kk]
  refine ⟨fun h => ⟨?_, ?_⟩, fun ⟨hop, hkk⟩ => by rw [hop, hkk]⟩
  · simpa only [fieldOp_encodeXK] using congrArg fieldOp h
  · simpa only [fieldKK_encodeXK] using congrArg fieldKK h

theorem and_op_n_eq_iff {w : Word} {op n : BitVec 4} :
    w &&& 0xF00F = encodeXYN op 0 0 n ↔ fieldOp w = op ∧ fieldN w = n := by
  conv_lhs => rw [← encodeXYN_fields w, encodeXYN_and_op_n]
  refine ⟨fun h => ⟨?_, ?_⟩, fun ⟨hop, hn⟩ => by rw [hop, hn]⟩
  · simpa only [fieldOp_encodeXYN] using congrArg fieldOp h
  · simpa only [fieldN_encodeXYN] using congrArg fieldN h

end Sys2Proof
end

section
/-! SUPPORT. The opcode map by fields (R91, R94, R95, R106): what `decode` answers, row by row. -/

namespace Sys2Proof

/-- The row of `i` in the opcode map (R106), read as conditions on the fields of `w`: the opcode fields the row examines,
and the operands in their fields (R91). -/
def HasFieldsOf (w : Word) : Instr → Prop
  | .cls => fieldOp w = 0x0#4 ∧ fieldKK w = 0xE0#8
  | .ret => fieldOp w = 0x0#4 ∧ fieldKK w = 0xEE#8
  | .jp nnn => fieldOp w = 0x1#4 ∧ fieldNNN w = nnn
  | .call nnn => fieldOp w = 0x2#4 ∧ fieldNNN w = nnn
  | .seImm x kk => fieldOp w = 0x3#4 ∧ fieldX w = x ∧ fieldKK w = kk
  | .sneImm x kk => fieldOp w = 0x4#4 ∧ fieldX w = x ∧ fieldKK w = kk
  | .seReg x y => fieldOp w = 0x5#4 ∧ fieldX w = x ∧ fieldY w = y
  | .ldImm x kk => fieldOp w = 0x6#4 ∧ fieldX w = x ∧ fieldKK w = kk
  | .addImm x kk => fieldOp w = 0x7#4 ∧ fieldX w = x ∧ fieldKK w = kk
  | .ldReg x y => (fieldOp w = 0x8#4 ∧ fieldN w = 0x0#4) ∧ fieldX w = x ∧ fieldY w = y
  | .orReg x y => (fieldOp w = 0x8#4 ∧ fieldN w = 0x1#4) ∧ fieldX w = x ∧ fieldY w = y
  | .andReg x y => (fieldOp w = 0x8#4 ∧ fieldN w = 0x2#4) ∧ fieldX w = x ∧ fieldY w = y
  | .xorReg x y => (fieldOp w = 0x8#4 ∧ fieldN w = 0x3#4) ∧ fieldX w = x ∧ fieldY w = y
  | .addReg x y => (fieldOp w = 0x8#4 ∧ fieldN w = 0x4#4) ∧ fieldX w = x ∧ fieldY w = y
  | .sub x y => (fieldOp w = 0x8#4 ∧ fieldN w = 0x5#4) ∧ fieldX w = x ∧ fieldY w = y
  | .shr x y => (fieldOp w = 0x8#4 ∧ fieldN w = 0x6#4) ∧ fieldX w = x ∧ fieldY w = y
  | .subn x y => (fieldOp w = 0x8#4 ∧ fieldN w = 0x7#4) ∧ fieldX w = x ∧ fieldY w = y
  | .shl x y => (fieldOp w = 0x8#4 ∧ fieldN w = 0xE#4) ∧ fieldX w = x ∧ fieldY w = y
  | .sneReg x y => fieldOp w = 0x9#4 ∧ fieldX w = x ∧ fieldY w = y
  | .ldI nnn => fieldOp w = 0xA#4 ∧ fieldNNN w = nnn
  | .jpV0 nnn => fieldOp w = 0xB#4 ∧ fieldNNN w = nnn
  | .rnd x kk => fieldOp w = 0xC#4 ∧ fieldX w = x ∧ fieldKK w = kk
  | .drw x y n => fieldOp w = 0xD#4 ∧ fieldX w = x ∧ fieldY w = y ∧ fieldRows w = n
  | .skp x => (fieldOp w = 0xE#4 ∧ fieldKK w = 0x9E#8) ∧ fieldX w = x
  | .sknp x => (fieldOp w = 0xE#4 ∧ fieldKK w = 0xA1#8) ∧ fieldX w = x
  | .ldVxDt x => (fieldOp w = 0xF#4 ∧ fieldKK w = 0x07#8) ∧ fieldX w = x
  | .ldVxK x => (fieldOp w = 0xF#4 ∧ fieldKK w = 0x0A#8) ∧ fieldX w = x
  | .ldDtVx x => (fieldOp w = 0xF#4 ∧ fieldKK w = 0x15#8) ∧ fieldX w = x
  | .ldStVx x => (fieldOp w = 0xF#4 ∧ fieldKK w = 0x18#8) ∧ fieldX w = x
  | .addI x => (fieldOp w = 0xF#4 ∧ fieldKK w = 0x1E#8) ∧ fieldX w = x
  | .ldF x => (fieldOp w = 0xF#4 ∧ fieldKK w = 0x29#8) ∧ fieldX w = x
  | .ldB x => (fieldOp w = 0xF#4 ∧ fieldKK w = 0x33#8) ∧ fieldX w = x
  | .ldMemVx x => (fieldOp w = 0xF#4 ∧ fieldKK w = 0x55#8) ∧ fieldX w = x
  | .ldVxMem x => (fieldOp w = 0xF#4 ∧ fieldKK w = 0x65#8) ∧ fieldX w = x

/-- The word of an instruction has the fields of its row (R92). -/
theorem hasFieldsOf_encode (i : Instr) : HasFieldsOf (encode i) i := by
  cases i with
  | jp | call | ldI | jpV0 => exact ⟨fieldOp_encodeA .., fieldNNN_encodeA ..⟩
  | cls | ret => exact ⟨fieldOp_encodeXK .., fieldKK_encodeXK ..⟩
  | seImm | sneImm | ldImm | addImm | rnd =>
    exact ⟨fieldOp_encodeXK .., fieldX_encodeXK .., fieldKK_encodeXK ..⟩
  | skp | sknp | ldVxDt | ldVxK | ldDtVx | ldStVx | addI | ldF | ldB | ldMemVx | ldVxMem =>
    exact ⟨⟨fieldOp_encodeXK .., fieldKK_encodeXK ..⟩, fieldX_encodeXK ..⟩
  | seReg | sneReg => exact ⟨fieldOp_encodeXYN .., fieldX_encodeXYN .., fieldY_encodeXYN ..⟩
  | ldReg | orReg | andReg | xorReg | addReg | sub | shr | subn | shl =>
    exact ⟨⟨fieldOp_encodeXYN .., fieldN_encodeXYN ..⟩, fieldX_encodeXYN .., fieldY_encodeXYN ..⟩
  | drw => exact ⟨fieldOp_encodeXYN .., fieldX_encodeXYN .., fieldY_encodeXYN .., fieldRows_encodeXYN ..⟩

/-! #### The secondary dispatch -/

variable {w : Word} {i : Instr}

theorem hasFieldsOf_of_decodeOp0 (hop : fieldOp w = 0x0) (h : decodeOp0 w = .instr i) : HasFieldsOf w i := by
  unfold decodeOp0 at h
  split at h <;> cases h <;> exact ⟨hop, ‹_›⟩

theorem hasFieldsOf_of_decodeOp8 (hop : fieldOp w = 0x8) (h : decodeOp8 w = .instr i) : HasFieldsOf w i := by
  unfold decodeOp8 at h
  split at h <;> cases h <;> exact ⟨⟨hop, ‹_›⟩, rfl, rfl⟩

theorem hasFieldsOf_of_decodeOpE (hop : fieldOp w = 0xE) (h : decodeOpE w = .instr i) : HasFieldsOf w i := by
  unfold decodeOpE at h
  split at h <;> cases h <;> exact ⟨⟨hop, ‹_›⟩, rfl⟩

theorem hasFieldsOf_of_decodeOpF (hop : fieldOp w = 0xF) (h : decodeOpF w = .instr i) : HasFieldsOf w i := by
  unfold decodeOpF at h
  split at h <;> cases h <;> exact ⟨⟨hop, ‹_›⟩, rfl⟩

/-- The last arm of the primary dispatch is op 0xF. -/
theorem op_eq_F_of_not_mem : ∀ op : BitVec 4,
    op ∉ [0x0, 0x1, 0x2, 0x3, 0x4, 0x5, 0x6, 0x7, 0x8, 0x9, 0xA, 0xB, 0xC, 0xD, 0xE] → op = 0xF := by
  decide

theorem hasFieldsOf_of_decode (h : decode w = .instr i) : HasFieldsOf w i := by
  unfold decode at h
  split at h
  case h_1 hop => exact hasFieldsOf_of_decodeOp0 hop h
  case h_9 hop => exact hasFieldsOf_of_decodeOp8 hop h
  case h_15 hop => exact hasFieldsOf_of_decodeOpE hop h
  case h_16 =>
    have hop : fieldOp w = 0xF := op_eq_F_of_not_mem _ (by simp only [List.mem_cons, List.not_mem_nil]; tauto)
    exact hasFieldsOf_of_decodeOpF hop h
  case h_14 hop => cases h; exact ⟨hop, rfl, rfl, rfl⟩
  case h_2 hop | h_3 hop | h_11 hop | h_12 hop => cases h; exact ⟨hop, rfl⟩
  all_goals cases h; exact ⟨‹_›, rfl, rfl⟩

theorem decode_of_hasFieldsOf (h : HasFieldsOf w i) : decode w = .instr i := by
  cases i with
  | cls | ret =>
    obtain ⟨hop, hkk⟩ := h
    simp [decode, decodeOp0, hop, hkk]
  | ldReg | orReg | andReg | xorReg | addReg | sub | shr | subn | shl =>
    obtain ⟨⟨hop, hn⟩, rfl, rfl⟩ := h
    simp [decode, decodeOp8, hop, hn]
  | skp | sknp =>
    obtain ⟨⟨hop, hkk⟩, rfl⟩ := h
    simp [decode, decodeOpE, hop, hkk]
  | ldVxDt | ldVxK | ldDtVx | ldStVx | addI | ldF | ldB | ldMemVx | ldVxMem =>
    obtain ⟨⟨hop, hkk⟩, rfl⟩ := h
    simp [decode, decodeOpF, hop, hkk]
  | jp | call | ldI | jpV0 =>
    obtain ⟨hop, rfl⟩ := h
    simp [decode, hop]
  | drw =>
    obtain ⟨hop, rfl, rfl, rfl⟩ := h
    simp [decode, hop]
  | _ =>
    obtain ⟨hop, rfl, rfl⟩ := h
    simp [decode, hop]

/-- Decoding is the opcode map, read by fields. -/
theorem decode_eq_instr_iff : decode w = .instr i ↔ HasFieldsOf w i :=
  ⟨hasFieldsOf_of_decode, decode_of_hasFieldsOf⟩

/-! #### A row's instruction and its mask -/

theorem decode_iff_mask_op (op : BitVec 4) {operands : Prop} (h : HasFieldsOf w i = (fieldOp w = op ∧ operands))
    (ho : operands) : decode w = .instr i ↔ w &&& 0xF000 = encodeA op 0 := by
  rw [decode_eq_instr_iff, h, and_op_eq_iff, and_iff_left ho]

theorem decode_iff_mask_op_n (op n : BitVec 4) {operands : Prop}
    (h : HasFieldsOf w i = ((fieldOp w = op ∧ fieldN w = n) ∧ operands)) (ho : operands) :
    decode w = .instr i ↔ w &&& 0xF00F = encodeXYN op 0 0 n := by
  rw [decode_eq_instr_iff, h, and_op_n_eq_iff, and_iff_left ho]

theorem decode_iff_mask_op_kk (op : BitVec 4) (kk : Byte) {operands : Prop}
    (h : HasFieldsOf w i = ((fieldOp w = op ∧ fieldKK w = kk) ∧ operands)) (ho : operands) :
    decode w = .instr i ↔ w &&& 0xF0FF = encodeXK op 0 kk := by
  rw [decode_eq_instr_iff, h, and_op_kk_eq_iff, and_iff_left ho]

/-! #### The words no row has (R107) -/

theorem decodeOp0_undefined_iff : decodeOp0 w = .undefinedWord w ↔ fieldKK w ≠ 0xE0 ∧ fieldKK w ≠ 0xEE := by
  unfold decodeOp0
  split <;> simp_all

/-- The values of `N` that op 0x8 gives no meaning. -/
theorem n_illegal_of_not_mem : ∀ n : BitVec 4,
    n ∉ [0x0, 0x1, 0x2, 0x3, 0x4, 0x5, 0x6, 0x7, 0xE] → n ∈ [0x8, 0x9, 0xA, 0xB, 0xC, 0xD, 0xF] := by
  decide

theorem decodeOp8_undefined_iff :
    decodeOp8 w = .undefinedWord w ↔ fieldN w ∈ [0x8, 0x9, 0xA, 0xB, 0xC, 0xD, 0xF] := by
  unfold decodeOp8
  split
  case h_10 => exact iff_of_true rfl (n_illegal_of_not_mem _ (by simp only [List.mem_cons, List.not_mem_nil]; tauto))
  all_goals simp_all

theorem decodeOpE_undefined_iff : decodeOpE w = .undefinedWord w ↔ fieldKK w ≠ 0x9E ∧ fieldKK w ≠ 0xA1 := by
  unfold decodeOpE
  split <;> simp_all

theorem decodeOpF_undefined_iff : decodeOpF w = .undefinedWord w ↔
    fieldKK w ∉ [0x07, 0x0A, 0x15, 0x18, 0x1E, 0x29, 0x33, 0x55, 0x65] := by
  unfold decodeOpF
  split <;> simp_all

theorem decode_undefined_iff : decode w = .undefinedWord w ↔
    (fieldOp w = 0x0 ∧ decodeOp0 w = .undefinedWord w) ∨ (fieldOp w = 0x8 ∧ decodeOp8 w = .undefinedWord w) ∨
      (fieldOp w = 0xE ∧ decodeOpE w = .undefinedWord w) ∨ (fieldOp w = 0xF ∧ decodeOpF w = .undefinedWord w) := by
  unfold decode
  split
  case h_16 =>
    have hop : fieldOp w = 0xF := op_eq_F_of_not_mem _ (by simp only [List.mem_cons, List.not_mem_nil]; tauto)
    simp [hop]
  all_goals simp [*]

/-- Every refusing arm names the word it was given (R102). -/
theorem decode_undefined_word {w' : Word} (h : decode w = .undefinedWord w') : w' = w := by
  unfold decode decodeOp0 decodeOp8 decodeOpE decodeOpF at h
  (repeat' split at h) <;> cases h <;> rfl

/-- Decoding is total: an instruction, or the word itself refused. -/
theorem decode_total (w : Word) : (∃ i, decode w = .instr i) ∨ decode w = .undefinedWord w := by
  cases hd : decode w with
  | instr i => exact .inl ⟨i, rfl⟩
  | undefinedWord w' => exact .inr (by rw [decode_undefined_word hd])

/-! #### Encoding what was decoded (R96) -/

theorem and_op_xy_eq (w : Word) : w &&& 0xFFF0 = encodeXYN (fieldOp w) (fieldX w) (fieldY w) 0 := by
  conv_lhs => rw [← encodeXYN_fields w, encodeXYN_and_op_xy]

/-- The bits a word's row examines, by primary opcode: all but `X` under op 0x0 and `N` under ops 0x5 and 0x9 (R96). -/
def examinedBits (op : BitVec 4) : Word := if op = 0x0 then 0xF0FF else if op = 0x5 ∨ op = 0x9 then 0xFFF0 else 0xFFFF

theorem and_examinedBits_eq_self {op : BitVec 4} (h : op ∉ [0x0, 0x5, 0x9]) (w : Word) : w &&& examinedBits op = w := by
  simp only [List.mem_cons, List.not_mem_nil, or_false, not_or] at h
  rw [examinedBits, if_neg h.1, if_neg (not_or.2 h.2)]
  exact BitVec.and_allOnes

/-- A row's word keeps every bit the row examines, and has 0 in the others. -/
theorem encode_of_hasFieldsOf (h : HasFieldsOf w i) : encode i = w &&& examinedBits (fieldOp w) := by
  cases i with
  | cls | ret =>
    rw [h.1]
    exact (and_op_kk_eq_iff.2 h).symm
  | seReg | sneReg =>
    obtain ⟨hop, rfl, rfl⟩ := h
    have hw := and_op_xy_eq w
    rw [hop] at hw ⊢
    exact hw.symm
  | jp | call | ldI | jpV0 =>
    obtain ⟨hop, rfl⟩ := h
    rw [hop, and_examinedBits_eq_self (by decide)]
    simpa only [encode, hop] using encodeA_fields w
  | seImm | sneImm | ldImm | addImm | rnd =>
    obtain ⟨hop, rfl, rfl⟩ := h
    rw [hop, and_examinedBits_eq_self (by decide)]
    simpa only [encode, hop] using encodeXK_fields w
  | skp | sknp | ldVxDt | ldVxK | ldDtVx | ldStVx | addI | ldF | ldB | ldMemVx | ldVxMem =>
    obtain ⟨⟨hop, hkk⟩, rfl⟩ := h
    rw [hop, and_examinedBits_eq_self (by decide)]
    simpa only [encode, hop, hkk] using encodeXK_fields w
  | ldReg | orReg | andReg | xorReg | addReg | sub | shr | subn | shl =>
    obtain ⟨⟨hop, hn⟩, rfl, rfl⟩ := h
    rw [hop, and_examinedBits_eq_self (by decide)]
    simpa only [encode, hop, hn] using encodeXYN_fields w
  | drw =>
    obtain ⟨hop, rfl, rfl, rfl⟩ := h
    rw [hop, and_examinedBits_eq_self (by decide)]
    simpa only [encode, hop, ofFin_fieldRows] using encodeXYN_fields w

end Sys2Proof
end

section
/-! SUPPORT. The cycle run forwards (R100 to R102): what `step` answers in each outcome of fetch and decode. -/

namespace Sys2Proof.Machine

variable {s : State} {i : Instr}

/-! #### Fetch (R101) -/

theorem fetchBytes_above (h : 0xFFF < s.pc.toNat) : fetchBytes s = .error (.addressOutOfRange, s.pc) := by
  rw [fetchBytes, if_pos (by omega), if_pos h]

theorem fetchBytes_last (h : s.pc = 0xFFF) : fetchBytes s = .error (.addressOutOfRange, 0x1000) := by
  rw [fetchBytes, h]
  rfl

theorem fetchBytes_odd (hr : s.pc.toNat < 0xFFF) (ha : s.pc.getLsbD 0 = true) :
    fetchBytes s = .error (.misalignedFetch, s.pc) := by
  rw [fetchBytes, if_neg (by omega), if_pos ha]

/-! #### What the cycle makes of it (R102) -/

theorem step_of_fetch_error {c : FaultCause} {info : Word} (hh : s.engine ≠ .halted)
    (hf : fetchBytes s = .error (c, info)) : step s = .next (endCycle (enterFault c info s)) := by
  rw [step, cycleWith, if_neg hh, hf]
  rfl

/-- With both fetch checks passed the cycle is what the word at `pc` decodes to. -/
theorem step_of_fetch_ok (hh : s.engine ≠ .halted) (hr : s.pc.toNat + 1 ≤ 0xFFF) (ha : s.pc.getLsbD 0 = false) :
    step s = finishCycle (match decode (wordAtPc s) with
      | .instr i => exec i s
      | .undefinedWord w => raise .decodeFailure w s) := by
  rw [step, cycleWith, if_neg hh, fetchBytes_ok hr ha]
  dsimp only
  rw [decodeBytes_cons, show wordOfBytes _ _ = wordAtPc s from rfl]
  cases decode (wordAtPc s) <;> rfl

theorem step_of_fetches (h : Fetches s i) : step s = finishCycle (exec i s) := by
  obtain ⟨hh, hr, ha, hd⟩ := h
  rw [step_of_fetch_ok hh hr ha, hd]

theorem step_of_undefined (hh : s.engine ≠ .halted) (hr : s.pc.toNat + 1 ≤ 0xFFF) (ha : s.pc.getLsbD 0 = false)
    (hd : decode (wordAtPc s) = .undefinedWord (wordAtPc s)) :
    step s = .next (endCycle (enterFault .decodeFailure (wordAtPc s) s)) := by
  rw [step_of_fetch_ok hh hr ha, hd]
  rfl

theorem step_faulted_of_fetch_error {c : FaultCause} {info : Word} (hh : s.engine ≠ .halted)
    (hf : fetchBytes s = .error (c, info)) : ∃ t, step s = .next t ∧ Faulted c info s t :=
  ⟨_, step_of_fetch_error hh hf, (endCycle_enterFault_faulted c info s).1⟩

/-! #### The end of the cycle (R240) -/

theorem countDown_eq (t : Byte) : countDown t = if t ≠ 0 then t - 1 else t := by
  rw [countDown, ite_not]
  split
  · exact Eq.symm ‹t = 0›
  · rfl

theorem endCycle_eq (u : State) : endCycle u = { u with
    dt := if u.engine = .running ∧ u.dt ≠ 0 then u.dt - 1 else u.dt
    st := if u.engine = .running ∧ u.st ≠ 0 then u.st - 1 else u.st
    inputs := u.inputs.tail
    draws := u.draws + 1 } := by
  by_cases he : u.engine = .running
  · simp only [endCycle, consumeInput, tickTimers, countDown_eq, he, if_true, true_and]
  · simp only [endCycle, consumeInput, he, if_false, false_and]

end Sys2Proof.Machine
end

section
/-! SUPPORT. With a legal `SP` every instruction completes, parks or faults: execution answers a next state (R29, R220). -/

namespace Sys2Proof.Machine

variable {s : State}

theorem execRet_next (h : s.sp.toNat ≤ 16) : ∃ t, execRet s = .next t := by
  unfold execRet
  split
  · exact ⟨_, rfl⟩
  · obtain ⟨_, hp⟩ := popReturn_of_le ‹_› h
    rw [hp]
    exact ⟨_, rfl⟩

theorem execCall_next (nnn : Addr12) (h : s.sp.toNat ≤ 16) : ∃ t, execCall nnn s = .next t := by
  unfold execCall
  split
  · exact ⟨_, rfl⟩
  · rw [pushReturn_of_lt _ (by bv_omega)]
    exact ⟨_, rfl⟩

theorem storeAtI_next (bytes : List Byte) (s : State) : ∃ t, storeAtI bytes s = .next t := by
  rcases storeAtI_cases bytes s with ⟨_, _, _, h⟩ | ⟨_, h⟩ <;> exact ⟨_, h⟩

theorem execDrw_next (x y : RegIdx) (n : Fin 16) (s : State) : ∃ t, execDrw x y n s = .next t := by
  unfold execDrw
  split <;> exact ⟨_, rfl⟩

theorem execLdVxMem_next (x : RegIdx) (s : State) : ∃ t, execLdVxMem x s = .next t := by
  unfold execLdVxMem
  split <;> exact ⟨_, rfl⟩

theorem execSkp_next (x : RegIdx) (s : State) : ∃ t, execSkp x s = .next t := by
  unfold execSkp
  split <;> exact ⟨_, rfl⟩

theorem execSknp_next (x : RegIdx) (s : State) : ∃ t, execSknp x s = .next t := by
  unfold execSknp
  split <;> exact ⟨_, rfl⟩

theorem exec_next (i : Instr) (h : s.sp.toNat ≤ 16) : ∃ t, exec i s = .next t := by
  cases i with
  | ret => exact execRet_next h
  | call nnn => exact execCall_next nnn h
  | ldB | ldMemVx => exact storeAtI_next _ s
  | drw x y n => exact execDrw_next x y n s
  | ldVxMem x => exact execLdVxMem_next x s
  | skp x => exact execSkp_next x s
  | sknp x => exact execSknp_next x s
  | _ => exact ⟨_, rfl⟩

end Sys2Proof.Machine
end

section
/-! SUPPORT. `pc` after execution (R104): every instruction that completed leaves what the table says. -/

namespace Sys2Proof.Machine

variable {s t : State} {i : Instr}

/-! #### The instructions that check before they act -/

theorem execRet_pc (h : execRet s = .next t) (hr : t.engine = .running) : t.pc = pcWhenCompleted .ret s := by
  unfold execRet at h
  split at h
  · cases h; cases hr
  · split at h
    · obtain ⟨ha, -⟩ := popReturn_eq_some ‹_›
      cases h
      simp only [pcWhenCompleted, ha, jump_pc, Option.getD_some]
    · cases h

theorem execCall_pc {nnn : Addr12} (h : execCall nnn s = .next t) (hr : t.engine = .running) :
    t.pc = pcWhenCompleted (.call nnn) s := by
  unfold execCall at h
  split at h
  · cases h; cases hr
  · split at h <;> cases h
    rfl

/-- A key test that does not fault reads the key that `V[X]` names (R192). -/
theorem keyPressed?_eq_some {x : RegIdx} {b : Bool} (h : keyPressed? s x = some b) :
    b = (keys s).getLsbD (reg s x).toNat := by
  unfold keyPressed? at h
  split at h <;> cases h
  rfl

theorem execSkp_pc {x : RegIdx} (h : execSkp x s = .next t) (hr : t.engine = .running) :
    t.pc = pcWhenCompleted (.skp x) s := by
  unfold execSkp at h
  split at h
  · cases h; cases hr
  · obtain rfl := keyPressed?_eq_some ‹_›
    cases h
    exact skipIf_pc _ s

theorem execSknp_pc {x : RegIdx} (h : execSknp x s = .next t) (hr : t.engine = .running) :
    t.pc = pcWhenCompleted (.sknp x) s := by
  unfold execSknp at h
  split at h
  · cases h; cases hr
  · obtain rfl := keyPressed?_eq_some ‹_›
    cases h
    exact skipIf_pc _ s

theorem keyLoad_pc {x : RegIdx} (hr : (keyLoad x s).engine = .running) : (keyLoad x s).pc = s.pc + 2 := by
  unfold keyLoad at hr ⊢
  split at hr
  · cases hr
  · rfl

theorem storeAtI_pc {bytes : List Byte} (h : storeAtI bytes s = .next t) (hr : t.engine = .running) :
    t.pc = s.pc + 2 := by
  rcases storeAtI_cases bytes s with ⟨c, a, -, he⟩ | ⟨-, he⟩ <;> cases he.symm.trans h
  · cases hr
  · simp

theorem execDrw_pc {x y : RegIdx} {n : Fin 16} (h : execDrw x y n s = .next t) (hr : t.engine = .running) :
    t.pc = s.pc + 2 := by
  unfold execDrw at h
  split at h <;> cases h
  · cases hr
  · rfl

theorem execLdVxMem_pc {x : RegIdx} (h : execLdVxMem x s = .next t) (hr : t.engine = .running) : t.pc = s.pc + 2 := by
  unfold execLdVxMem at h
  split at h <;> cases h
  · cases hr
  · rfl

/-! #### Every instruction -/

/-- An instruction that completed leaves the `pc` of R104's table. -/
theorem exec_pc_of_running (h : exec i s = .next t) (hr : t.engine = .running) : t.pc = pcWhenCompleted i s := by
  cases i with
  | ret => exact execRet_pc h hr
  | call nnn => exact execCall_pc h hr
  | seImm | sneImm | seReg | sneReg => cases h; exact skipIf_pc _ s
  | skp x => exact execSkp_pc h hr
  | sknp x => exact execSknp_pc h hr
  | ldVxK x => cases h; exact keyLoad_pc hr
  | ldB | ldMemVx => exact storeAtI_pc h hr
  | drw x y n => exact execDrw_pc h hr
  | ldVxMem x => exact execLdVxMem_pc h hr
  | _ => cases h; rfl

/-- An instruction that parked or faulted leaves `pc` (R104, R193, R222). -/
theorem Executed.pc_of_not_running (h : Executed s i t) (hr : t.engine ≠ .running) : t.pc = s.pc := by
  cases h with
  | faulted | parked => rfl
  | _ => exact absurd (by simp) hr

end Sys2Proof.Machine
end

section
/-! SUPPORT. The statements of 30_encoding.md. -/

namespace Sys2Proof.Machine

/-- Settles O2: the word of an instruction has the fields of its row, and its two bytes give the word back. -/
theorem encodeThenDecodeGivesTheInstruction : Obligations.EncodeThenDecodeGivesTheInstruction := by
  intro i rest
  have h : decode (encode i) = .instr i := decode_of_hasFieldsOf (hasFieldsOf_encode i)
  refine ⟨h, ?_⟩
  rw [bytesOfWord, List.cons_append, List.singleton_append, decodeBytes_cons, wordOfBytes_split, h]

/-- Settles O3, row by row: the mask keeps the row's opcode fields, and the operands are the word's own fields. -/
theorem decodeFollowsMaskAndMatch : Obligations.DecodeFollowsMaskAndMatch := by
  intro w x y n nnn kk
  have hcls : decode w = .instr .cls ↔ w &&& 0xF0FF = 0x00E0 := decode_eq_instr_iff.trans and_op_kk_eq_iff.symm
  have hret : decode w = .instr .ret ↔ w &&& 0xF0FF = 0x00EE := decode_eq_instr_iff.trans and_op_kk_eq_iff.symm
  exact ⟨hcls, hret,
    decode_iff_mask_op 0x1 rfl rfl,
    decode_iff_mask_op 0x2 rfl rfl,
    decode_iff_mask_op 0x3 rfl ⟨rfl, rfl⟩,
    decode_iff_mask_op 0x4 rfl ⟨rfl, rfl⟩,
    decode_iff_mask_op 0x5 rfl ⟨rfl, rfl⟩,
    decode_iff_mask_op 0x6 rfl ⟨rfl, rfl⟩,
    decode_iff_mask_op 0x7 rfl ⟨rfl, rfl⟩,
    decode_iff_mask_op_n 0x8 0x0 rfl ⟨rfl, rfl⟩,
    decode_iff_mask_op_n 0x8 0x1 rfl ⟨rfl, rfl⟩,
    decode_iff_mask_op_n 0x8 0x2 rfl ⟨rfl, rfl⟩,
    decode_iff_mask_op_n 0x8 0x3 rfl ⟨rfl, rfl⟩,
    decode_iff_mask_op_n 0x8 0x4 rfl ⟨rfl, rfl⟩,
    decode_iff_mask_op_n 0x8 0x5 rfl ⟨rfl, rfl⟩,
    decode_iff_mask_op_n 0x8 0x6 rfl ⟨rfl, rfl⟩,
    decode_iff_mask_op_n 0x8 0x7 rfl ⟨rfl, rfl⟩,
    decode_iff_mask_op_n 0x8 0xE rfl ⟨rfl, rfl⟩,
    decode_iff_mask_op 0x9 rfl ⟨rfl, rfl⟩,
    decode_iff_mask_op 0xA rfl rfl,
    decode_iff_mask_op 0xB rfl rfl,
    decode_iff_mask_op 0xC rfl ⟨rfl, rfl⟩,
    decode_iff_mask_op 0xD rfl ⟨rfl, rfl, rfl⟩,
    decode_iff_mask_op_kk 0xE 0x9E rfl rfl,
    decode_iff_mask_op_kk 0xE 0xA1 rfl rfl,
    decode_iff_mask_op_kk 0xF 0x07 rfl rfl,
    decode_iff_mask_op_kk 0xF 0x0A rfl rfl,
    decode_iff_mask_op_kk 0xF 0x15 rfl rfl,
    decode_iff_mask_op_kk 0xF 0x18 rfl rfl,
    decode_iff_mask_op_kk 0xF 0x1E rfl rfl,
    decode_iff_mask_op_kk 0xF 0x29 rfl rfl,
    decode_iff_mask_op_kk 0xF 0x33 rfl rfl,
    decode_iff_mask_op_kk 0xF 0x55 rfl rfl,
    decode_iff_mask_op_kk 0xF 0x65 rfl rfl⟩

/-- Settles O4, one kind of illegal word per secondary dispatch. -/
theorem illegalWordsAreExactlyThoseOfTheTable : Obligations.IllegalWordsAreExactlyThoseOfTheTable := by
  intro w op n kk
  refine ⟨?_, decode_total w⟩
  rw [decode_undefined_iff, decodeOp0_undefined_iff, decodeOp8_undefined_iff, decodeOpE_undefined_iff,
    decodeOpF_undefined_iff]
  rfl

/-- Settles O5: a word is put together again from the fields of its row. -/
theorem reencodingKeepsEveryExaminedBit : Obligations.ReencodingKeepsEveryExaminedBit :=
  fun _ _ h => encode_of_hasFieldsOf (decode_eq_instr_iff.1 h)

/-- Settles O1 by evaluating the decoder on the 34 words. -/
theorem opcodeWordsDecodeToTheirInstructions : Obligations.OpcodeWordsDecodeToTheirInstructions := by
  unfold Obligations.OpcodeWordsDecodeToTheirInstructions
  decide

/-- Settles O7, one clause per outcome of the two checks. -/
theorem fetchChecksRangeThenAlignment : Obligations.FetchChecksRangeThenAlignment := by
  intro s hh
  refine ⟨fun h => ?_, fun h => ?_, fun hr ha => ?_, fun hr ha => ⟨by omega, ?_, fun i hd => ?_⟩⟩
  · exact step_faulted_of_fetch_error hh (fetchBytes_above h)
  · exact step_faulted_of_fetch_error hh (fetchBytes_last h)
  · exact step_faulted_of_fetch_error hh (fetchBytes_odd hr ha)
  · exact ⟨_, _, fetchBytes_ok hr ha, rfl, rfl, rfl⟩
  · exact step_of_fetches ⟨hh, hr, ha, hd⟩

/-- Settles O11: a fetch fault and a decode failure enter `Halted`, and with a legal `SP` execution answers. -/
theorem everyCycleCompletes : Obligations.EveryCycleCompletes := by
  intro s hsp
  by_cases hh : s.engine = .halted
  · exact ⟨s, if_pos hh⟩
  · cases hf : fetchBytes s with
    | error e => exact ⟨_, step_of_fetch_error hh hf⟩
    | ok bytes =>
      obtain ⟨hr, ha, -⟩ := fetchBytes_two hf
      rcases decode_total (wordAtPc s) with ⟨i, hd⟩ | hd
      · obtain ⟨u, hu⟩ := exec_next i hsp
        exact ⟨endCycle u, by rw [step_of_fetches ⟨hh, hr, ha, hd⟩, hu, finishCycle]⟩
      · exact ⟨_, step_of_undefined hh hr ha hd⟩

/-- Settles O22: only an executed instruction ends a cycle in `Running`; then `pc` is its row's value. -/
theorem programCounterAfterEachCycle : Obligations.ProgramCounterAfterEachCycle := by
  intro s t h
  rcases step_cases h with ⟨hh, rfl⟩ | ⟨hh, ⟨c, info, -, rfl⟩ | ⟨w, -, -, -, rfl⟩ | ⟨i, u, hr, ha, hd, hx, rfl⟩⟩
  · exact ⟨fun _ => rfl, fun hrun => by rw [hh] at hrun; cases hrun⟩
  · exact ⟨fun _ => rfl, fun hrun => by cases hrun⟩
  · exact ⟨fun _ => rfl, fun hrun => by cases hrun⟩
  · rw [endCycle_engine, endCycle_pc]
    exact ⟨(exec_executed hx).pc_of_not_running, fun hrun => ⟨i, ⟨hh, hr, ha, hd⟩, exec_pc_of_running hx hrun⟩⟩

/-- Settles O6: the cycle ends what execution answers. -/
theorem stepRunsTheDecodedInstruction : Obligations.StepRunsTheDecodedInstruction := by
  intro s i h
  refine ⟨fun u hu => ?_, fun f hf => ?_⟩
  · rw [step_of_fetches h, hu, finishCycle, endCycle_eq]
  · rw [step_of_fetches h, hf, finishCycle]

/-- Settles O8: a word that is no instruction is refused under its own name. -/
theorem undefinedWordHaltsTheEngine : Obligations.UndefinedWordHaltsTheEngine := by
  intro s hh hr ha hno
  have hd : decode (wordAtPc s) = .undefinedWord (wordAtPc s) :=
    (decode_total (wordAtPc s)).resolve_left fun ⟨i, hi⟩ => hno i hi
  exact ⟨_, step_of_undefined hh hr ha hd, endCycle_enterFault_faulted ..⟩

end Sys2Proof.Machine
end

section
/-! SUPPORT. The meanings of 40_flow_control.md: the targets of the jumps, the call and the return where they complete,
and what they leave unchanged. -/

namespace Sys2Proof.Machine

variable {s : State}

/-! #### Targets (R120, R121) -/

theorem addrImm_toNat (nnn : Addr12) : (addrImm nnn).toNat = nnn.toNat :=
  BitVec.toNat_setWidth_of_le (by decide)

/-- The sum stays below 4096 + 256, so BNNN never wraps (R121). -/
theorem indexedTarget_toNat (nnn : Addr12) (s : State) : (indexedTarget nnn s).toNat = nnn.toNat + (reg s 0).toNat := by
  have haddr : (nnn.setWidth 16).toNat = nnn.toNat := addrImm_toNat nnn
  have hreg : ((reg s 0).setWidth 16).toNat = (reg s 0).toNat := BitVec.toNat_setWidth_of_le (by decide)
  rw [indexedTarget, BitVec.toNat_add_of_lt (by omega), haddr, hreg]

/-! #### Call and return (R122, R123) -/

/-- Everything is unchanged but `pc`, `SP` and the stack entries; `ENGINE` is `Running`. -/
def StackFrame (s t : State) : Prop :=
  SameRegsBut [] s t ∧ t.i = s.i ∧ SameTimers s t ∧ SameMemory s t ∧ SameScreen s t ∧ SameFaultRegs s t ∧
  t.cfg = s.cfg ∧ SameSamples s t ∧ t.engine = .running

theorem jump_stackFrame (a : Word) (stack : Vector Word 16) (sp : BitVec 5) (s : State) :
    StackFrame s (jump a { s with stack := stack, sp := sp }) :=
  ⟨fun _ _ => rfl, rfl, ⟨rfl, rfl⟩, fun _ => rfl, fun _ _ => rfl, ⟨rfl, rfl⟩, rfl, ⟨rfl, rfl⟩, rfl⟩

theorem execCall_of_lt (nnn : Addr12) (h : s.sp.toNat < 16) :
    execCall nnn s =
      .next (jump (addrImm nnn) { s with stack := s.stack.set s.sp.toNat s.pc h, sp := s.sp + 1 }) := by
  have hfull : s.sp ≠ 16 := by bv_omega
  rw [execCall, if_neg hfull, pushReturn_of_lt _ h]

theorem execCall_of_full (nnn : Addr12) (h : s.sp = 16) : execCall nnn s = raise .stackOverflow s.pc s := if_pos h

theorem execRet_of_le (h0 : 0 < s.sp.toNat) (h : s.sp.toNat ≤ 16) :
    execRet s = .next (jump (s.stack[s.sp.toNat - 1] + 2) { s with sp := s.sp - 1 }) := by
  have hempty : s.sp ≠ 0 := by bv_omega
  obtain ⟨_, hpop⟩ := popReturn_of_le hempty h
  rw [execRet, if_neg hempty, hpop]

theorem execRet_of_empty (h : s.sp = 0) : execRet s = raise .stackUnderflow s.pc s := if_pos h

/-! #### Comparing skips (R124 to R127) -/

/-- An instruction that is a skip advances by 4 or 2 and changes nothing else, whatever proposition its test decides. -/
theorem skip_of_exec_eq {i : Instr} {test : Bool} {p : Prop} [Decidable p] (h : exec i s = .next (skipIf test s))
    (ht : test = true ↔ p) :
    ∃ t, exec i s = .next t ∧ t.pc.toNat = (s.pc.toNat + if p then 4 else 2) % 65536 ∧ RegisterFrame [] s t :=
  ⟨_, h, by simp only [skipIf_pc_toNat, ht], skipIf_frame test s⟩

end Sys2Proof.Machine
end

section
/-! SUPPORT. The statements of 40_flow_control.md. -/

namespace Sys2Proof.Machine

/-- Settles O32: the push stores at the old `SP` alone, and the jump follows. -/
theorem callPushesItsOwnAddress : Obligations.CallPushesItsOwnAddress := by
  intro s nnn h
  have hsp : (s.sp + 1).toNat = s.sp.toNat + 1 := by bv_omega
  exact ⟨_, execCall_of_lt nnn h, addrImm_toNat nnn, hsp, Vector.getElem_set_self h,
    fun j hj => Vector.getElem_set_ne h j.isLt hj.symm, jump_stackFrame ..⟩

/-- Settles O33: the pop reads the entry below `SP` and writes `SP` alone. -/
theorem returnGoesOnAfterTheCall : Obligations.ReturnGoesOnAfterTheCall := by
  intro s h0 h
  have hsp : (s.sp - 1).toNat = s.sp.toNat - 1 := by bv_omega
  exact ⟨_, execRet_of_le h0 h, hsp, BitVec.toNat_add _ _, fun _ => rfl, jump_stackFrame _ s.stack _ s⟩

/-- Settles O35 from O32 and O33: the entry the return pops is the one the call pushed. -/
theorem callThenReturnComesBack : Obligations.CallThenReturnComesBack := by
  intro s nnn h
  obtain ⟨t, hcall, -, htsp, htop, hother, -⟩ := callPushesItsOwnAddress s nnn h
  obtain ⟨u, hret, husp, hupc, hstack, -⟩ := returnGoesOnAfterTheCall t (by omega) (by omega)
  have hindex : t.sp.toNat - 1 = s.sp.toNat := by omega
  simp only [hindex, htop] at husp hupc
  exact ⟨t, u, hcall, hret, BitVec.eq_of_toNat_eq (hupc.trans (BitVec.toNat_add s.pc 2).symm),
    BitVec.eq_of_toNat_eq husp, fun j hj => (hstack j).trans (hother j hj)⟩

/-- Settles O31: both are jumps, and neither target wraps. -/
theorem jumpsGoToTheirTargets : Obligations.JumpsGoToTheirTargets := by
  intro s nnn
  exact ⟨⟨_, rfl, addrImm_toNat nnn, jump_frame ..⟩, ⟨_, rfl, indexedTarget_toNat nnn s, jump_frame ..⟩⟩

/-- Settles O34: both checks come before the stack is touched. -/
theorem stackOverflowAndUnderflowFault : Obligations.StackOverflowAndUnderflowFault := by
  intro s
  exact ⟨fun h nnn => faulted_of_exec_eq_raise (execCall_of_full nnn h),
    fun h => faulted_of_exec_eq_raise (execRet_of_empty h)⟩

/-- Settles O36: each is a skip, whose test says whether two bytes are the same number. -/
theorem comparingSkipsAdvanceByFourOrTwo : Obligations.ComparingSkipsAdvanceByFourOrTwo := by
  intro s x y kk
  have heq (a b : Byte) : (a == b) = true ↔ a.toNat = b.toNat := by rw [beq_iff_eq, BitVec.toNat_inj]
  have hne (a b : Byte) : (a != b) = true ↔ a.toNat ≠ b.toNat := by rw [bne_iff_ne, Ne, ← BitVec.toNat_inj]
  exact ⟨skip_of_exec_eq rfl (heq ..), skip_of_exec_eq rfl (hne ..), skip_of_exec_eq rfl (heq ..),
    skip_of_exec_eq rfl (hne ..)⟩

end Sys2Proof.Machine
end

section
/-! SUPPORT. The meanings of 41_register_alu.md: flags and results as numbers (R140 to R152), and what writing one register,
or a result and the flag, leaves behind. -/

namespace Sys2Proof.Machine

variable {s : State}

/-! #### Flags (R26, R148 to R152) -/

theorem flagByte_toNat (f : Bool) : (flagByte f).toNat = f.toNat := by
  cases f <;> rfl

theorem flagByte_decide_toNat (p : Prop) [Decidable p] : (flagByte (decide p)).toNat = if p then 1 else 0 :=
  (flagByte_toNat _).trans (apply_ite Bool.toNat p true false)

theorem carryFlag_toNat (a b : Byte) : (carryFlag a b).toNat = if 255 < a.toNat + b.toNat then 1 else 0 :=
  flagByte_decide_toNat _

theorem greaterFlag_toNat (a b : Byte) : (greaterFlag a b).toNat = if a.toNat > b.toNat then 1 else 0 :=
  flagByte_decide_toNat _

theorem flagByte_getLsbD_toNat (a : Byte) (k : Nat) : (flagByte (a.getLsbD k)).toNat = a.toNat / 2 ^ k % 2 := by
  rw [flagByte_toNat, ← BitVec.testBit_toNat, Nat.toNat_testBit]

theorem shiftedOutRight_toNat (a : Byte) : (shiftedOutRight a).toNat = a.toNat % 2 := by
  rw [shiftedOutRight, flagByte_getLsbD_toNat, pow_zero, Nat.div_one]

/-- Bit 7 is the top bit of a byte. -/
theorem shiftedOutLeft_toNat (a : Byte) : (shiftedOutLeft a).toNat = a.toNat / 128 := by
  have htop : a.toNat / 128 < 2 := by omega
  rw [shiftedOutLeft, flagByte_getLsbD_toNat]
  exact Nat.mod_eq_of_lt htop

/-! #### Results (R149 to R152) -/

theorem sub_toNat_emod (a b : Byte) : ((a - b).toNat : Int) = (a.toNat - b.toNat : Int) % 256 := by
  rw [BitVec.toNat_sub]
  omega

theorem ushiftRight_one_toNat (a : Byte) : (a >>> 1).toNat = a.toNat / 2 := by
  rw [BitVec.toNat_ushiftRight, Nat.shiftRight_one]

theorem shiftLeft_one_toNat (a : Byte) : (a <<< 1).toNat = a.toNat * 2 % 256 := by
  rw [BitVec.toNat_shiftLeft, Nat.shiftLeft_eq, pow_one]

/-- `SHIFT_SOURCE` names the operand (D6). -/
theorem shiftOperand_eq (s : State) (x y : RegIdx) :
    shiftOperand s x y = if s.cfg.shiftSource = .x then reg s x else reg s y := by
  unfold shiftOperand
  cases s.cfg.shiftSource <;> rfl

/-! #### Writes (R140, R141) -/

theorem reg_advance_writeReg (x : RegIdx) (b : Byte) (s : State) : reg (advance (writeReg x b s)) x = b :=
  (reg_writeReg x x b s).trans (if_pos rfl)

/-- The flag is written last, also over the result. -/
theorem reg_advance_writeResultAndFlag_flag (x : RegIdx) (b f : Byte) (s : State) :
    reg (advance (writeResultAndFlag x b f s)) flagReg = f :=
  (reg_writeResultAndFlag x flagReg b f s).trans (if_pos rfl)

theorem reg_advance_writeResultAndFlag_result {x : RegIdx} (hx : x ≠ flagReg) (b f : Byte) (s : State) :
    reg (advance (writeResultAndFlag x b f s)) x = b :=
  (reg_writeResultAndFlag x x b f s).trans ((if_neg hx).trans (if_pos rfl))

/-- An instruction that writes one register leaves there the byte it computes, read as the statement reads it, and changes
nothing else. -/
theorem wroteReg_of_exec_eq {i : Instr} {x : RegIdx} {b : Byte} {α : Type} (read : Byte → α) {z : α}
    (h : exec i s = .next (advance (writeReg x b s))) (hb : read b = z) :
    ∃ t, exec i s = .next t ∧ read (reg t x) = z ∧ t.pc = s.pc + 2 ∧ RegisterFrame [x] s t :=
  ⟨_, h, by rw [reg_advance_writeReg, hb], rfl, advance_writeReg_frame x b s⟩

/-- An instruction that writes a result and the flag leaves the flag in `VF` and the result, read as the statement reads it,
in every other destination, and changes nothing else. -/
theorem wroteResultAndFlag_of_exec_eq {i : Instr} {x : RegIdx} {b f : Byte} {n : Nat} {α : Type} (read : Byte → α) {z : α}
    (h : exec i s = .next (advance (writeResultAndFlag x b f s))) (hf : f.toNat = n) (hb : read b = z) :
    ∃ t, exec i s = .next t ∧ (reg t flagReg).toNat = n ∧ (x ≠ flagReg → read (reg t x) = z) ∧ t.pc = s.pc + 2 ∧
      RegisterFrame [x, flagReg] s t :=
  ⟨_, h, by rw [reg_advance_writeResultAndFlag_flag, hf],
    fun hx => by rw [reg_advance_writeResultAndFlag_result hx, hb], rfl, advance_writeResultAndFlag_frame x b f s⟩

/-- An instruction that writes one register leaves there the bits of the byte it computes, and changes nothing else. -/
theorem wroteBits_of_exec_eq {i : Instr} {x : RegIdx} {result : Byte} {bit : Nat → Bool}
    (h : exec i s = .next (advance (writeReg x result s))) (hbit : ∀ b, result.getLsbD b = bit b) :
    ∃ t, exec i s = .next t ∧ (∀ b, b < 8 → (reg t x).getLsbD b = bit b) ∧ t.pc = s.pc + 2 ∧ RegisterFrame [x] s t :=
  ⟨_, h, fun b _ => by rw [reg_advance_writeReg, hbit], rfl, advance_writeReg_frame x result s⟩

end Sys2Proof.Machine
end

section
/-! SUPPORT. The statements of 41_register_alu.md. -/

namespace Sys2Proof.Machine

/-- Settles O40: the sum wraps, and the carry is read off the sum that does not. -/
theorem addSetsTheCarryFlag : Obligations.AddSetsTheCarryFlag := by
  intro s x y
  exact wroteResultAndFlag_of_exec_eq BitVec.toNat rfl (carryFlag_toNat ..) (BitVec.toNat_add ..)

/-- Settles O41: one subtraction, with its operands either way round. -/
theorem subtractionsSetTheStrictFlag : Obligations.SubtractionsSetTheStrictFlag := by
  intro s x y
  exact ⟨wroteResultAndFlag_of_exec_eq (fun b => (b.toNat : Int)) rfl (greaterFlag_toNat ..) (sub_toNat_emod ..),
    wroteResultAndFlag_of_exec_eq (fun b => (b.toNat : Int)) rfl (greaterFlag_toNat ..) (sub_toNat_emod ..)⟩

/-- Settles O42: the register that `SHIFT_SOURCE` names is the operand of both shifts. -/
theorem shiftsSetTheShiftedOutBit : Obligations.ShiftsSetTheShiftedOutBit := by
  intro s x y a
  have ha : a = shiftOperand s x y := (shiftOperand_eq s x y).symm
  rw [ha]
  exact ⟨wroteResultAndFlag_of_exec_eq BitVec.toNat rfl (shiftedOutRight_toNat _) (ushiftRight_one_toNat _),
    wroteResultAndFlag_of_exec_eq BitVec.toNat rfl (shiftedOutLeft_toNat _) (shiftLeft_one_toNat _)⟩

/-- Settles O37: the word has the fields of the row 6XKK, and the instruction writes one register. -/
theorem loadImmediateLoadsTheByte : Obligations.LoadImmediateLoadsTheByte :=
  ⟨fun _ hw => (decode_iff_mask_op 0x6 rfl ⟨rfl, rfl⟩).2 hw, fun _ _ _ => wroteReg_of_exec_eq id rfl rfl⟩

/-- Settles O38: both write one register, the sum wrapped. -/
theorem addImmediateAndCopyWriteOneRegister : Obligations.AddImmediateAndCopyWriteOneRegister := by
  intro s x y kk
  exact ⟨wroteReg_of_exec_eq BitVec.toNat rfl (BitVec.toNat_add ..), wroteReg_of_exec_eq id rfl rfl⟩

/-- Settles O39: each bit of the written byte comes from the same bit of the two operands. -/
theorem bitwiseOperationsActBitByBit : Obligations.BitwiseOperationsActBitByBit := by
  intro s x y
  exact ⟨wroteBits_of_exec_eq rfl fun _ => BitVec.getLsbD_or, wroteBits_of_exec_eq rfl fun _ => BitVec.getLsbD_and,
    wroteBits_of_exec_eq rfl fun _ => BitVec.getLsbD_xor⟩

end Sys2Proof.Machine
end

section
/-! SUPPORT. The samples beside execution (R60, R161, R232): executing with other samples commutes with every instruction but
the three key instructions and RND. -/

namespace Sys2Proof.Machine

variable {inputs : List HostInput} {draws : Nat}

/-- The state with other samples settled for the coming cycles. -/
def withSamples (inputs : List HostInput) (draws : Nat) (s : State) : State :=
  { s with inputs := inputs, draws := draws }

/-- The answer of an execution, with other samples in its next state. -/
def answerWithSamples (inputs : List HostInput) (draws : Nat) : Result → Result
  | .next t => .next (withSamples inputs draws t)
  | .fault f => .fault f
  | .refused r => .refused r

@[simp] theorem withSamples_pc (s : State) : (withSamples inputs draws s).pc = s.pc := rfl

@[simp] theorem withSamples_sp (s : State) : (withSamples inputs draws s).sp = s.sp := rfl

@[simp] theorem withSamples_stack (s : State) : (withSamples inputs draws s).stack = s.stack := rfl

@[simp] theorem baseAddr_withSamples (s : State) : baseAddr (withSamples inputs draws s) = baseAddr s := rfl

/-! #### The shared operations -/

theorem skipIf_withSamples (test : Bool) (s : State) :
    skipIf test (withSamples inputs draws s) = withSamples inputs draws (skipIf test s) := by
  cases test <;> rfl

theorem storeBytes_withSamples (a : Nat) (bytes : List Byte) (s : State) :
    storeBytes a bytes (withSamples inputs draws s) = withSamples inputs draws (storeBytes a bytes s) := by
  induction bytes generalizing a s with
  | nil => rfl
  | cons b bs ih => exact ih (a + 1) (writeByte a b s)

theorem pushReturn_withSamples (a : Word) (s : State) :
    pushReturn a (withSamples inputs draws s) = (pushReturn a s).map (withSamples inputs draws) := by
  by_cases h : s.sp.toNat < 16
  · rw [pushReturn_of_lt a h, pushReturn_of_lt a (by simpa using h)]
    rfl
  · rw [pushReturn_of_ge a (Nat.le_of_not_lt h), pushReturn_of_ge a (by simpa using h)]
    rfl

theorem popReturn_withSamples (s : State) :
    popReturn (withSamples inputs draws s) = (popReturn s).map (Prod.map id (withSamples inputs draws)) := by
  rw [popReturn, popReturn, withSamples_sp, withSamples_stack]
  cases s.stack[s.sp.toNat - 1]? <;> rfl

/-! #### The instructions that check before they act -/

theorem execCall_withSamples (nnn : Addr12) (s : State) :
    execCall nnn (withSamples inputs draws s) = answerWithSamples inputs draws (execCall nnn s) := by
  rw [execCall, execCall, withSamples_sp, withSamples_pc, pushReturn_withSamples]
  split
  · rfl
  · cases pushReturn s.pc s <;> rfl

theorem execRet_withSamples (s : State) :
    execRet (withSamples inputs draws s) = answerWithSamples inputs draws (execRet s) := by
  rw [execRet, execRet, withSamples_sp, withSamples_pc, popReturn_withSamples]
  split
  · rfl
  · cases popReturn s <;> rfl

theorem storeAtI_withSamples (bytes : List Byte) (s : State) :
    storeAtI bytes (withSamples inputs draws s) = answerWithSamples inputs draws (storeAtI bytes s) := by
  rw [storeAtI, storeAtI, baseAddr_withSamples, storeBytes_withSamples]
  cases firstFailing writeFault (baseAddr s) bytes.length <;> rfl

theorem execLdVxMem_withSamples (x : RegIdx) (s : State) :
    execLdVxMem x (withSamples inputs draws s) = answerWithSamples inputs draws (execLdVxMem x s) := by
  rw [execLdVxMem, execLdVxMem, baseAddr_withSamples]
  cases firstFailing readFault (baseAddr s) (regCount x) <;> rfl

theorem execDrw_withSamples (x y : RegIdx) (n : Fin 16) (s : State) :
    execDrw x y n (withSamples inputs draws s) = answerWithSamples inputs draws (execDrw x y n s) := by
  rw [execDrw, execDrw, baseAddr_withSamples]
  cases firstFailing readFault (baseAddr s) n.val <;> rfl

/-! #### Every instruction that reads no sample -/

/-- Such an instruction reads only fields that `withSamples` keeps, and carries the samples along (R161, R232). -/
theorem exec_withSamples {i : Instr} (hkeys : ∀ x, i ≠ .skp x ∧ i ≠ .sknp x ∧ i ≠ .ldVxK x)
    (hrnd : ∀ x kk, i ≠ .rnd x kk) (s : State) :
    exec i (withSamples inputs draws s) = answerWithSamples inputs draws (exec i s) := by
  cases i with
  | skp x => exact absurd rfl (hkeys x).1
  | sknp x => exact absurd rfl (hkeys x).2.1
  | ldVxK x => exact absurd rfl (hkeys x).2.2
  | rnd x kk => exact absurd rfl (hrnd x kk)
  | seImm | sneImm | seReg | sneReg => exact congrArg _ (skipIf_withSamples _ s)
  | call nnn => exact execCall_withSamples nnn s
  | ret => exact execRet_withSamples s
  | ldB | ldMemVx => exact storeAtI_withSamples _ s
  | ldVxMem x => exact execLdVxMem_withSamples x s
  | drw x y n => exact execDrw_withSamples x y n s
  | _ => rfl

end Sys2Proof.Machine
end

section
/-! SUPPORT. The statements of 42_random.md. -/

namespace Sys2Proof.Machine

/-- Settles O24: changing the samples commutes with execution, so both kinds of answer stay what they were. -/
theorem otherInstructionsIgnoreTheInputs : Obligations.OtherInstructionsIgnoreTheInputs := by
  intro i s inputs draws hkeys hrnd
  have hcomm : exec i (withSamples inputs draws s) = answerWithSamples inputs draws (exec i s) :=
    exec_withSamples hkeys hrnd s
  exact ⟨fun t ht => hcomm.trans (congrArg _ ht), fun f hf => hcomm.trans (congrArg _ hf)⟩

/-- Settles O43: each bit of the written byte is the sample's bit and the mask's, whatever the sample is. -/
theorem randomByteIsMasked : Obligations.RandomByteIsMasked := by
  intro s x kk
  exact wroteBits_of_exec_eq rfl fun _ => BitVec.getLsbD_and

end Sys2Proof.Machine
end

section
/-! SUPPORT. The meanings of 43_indexed_addressing.md: what `I` receives, the digits FX33 stores, and the registers FX65 loads
where its addresses are in range. -/

namespace Sys2Proof.Machine

variable {s : State}

/-! #### What `I` receives (R165 to R167) -/

/-- FX1E wraps at 65536 and no earlier. -/
theorem add_setWidth_toNat (a : Word) (b : Byte) : (a + b.setWidth 16).toNat = (a.toNat + b.toNat) % 65536 := by
  rw [BitVec.toNat_add, BitVec.toNat_setWidth_of_le (by decide)]

/-- The mask keeps the low nibble, and 5 times a nibble never wraps. -/
theorem glyphAddr_toNat (b : Byte) : (glyphAddr b).toNat = b.toNat % 16 * 5 := by
  have hnibble : (b &&& 0x0F).toNat = b.toNat % 16 := Nat.and_two_pow_sub_one_eq_mod b.toNat 4
  have hwide : ((b &&& 0x0F).setWidth 16).toNat = b.toNat % 16 :=
    (BitVec.toNat_setWidth_of_le (by decide)).trans hnibble
  have hsmall : b.toNat % 16 * 5 < 65536 := by omega
  rw [glyphAddr, BitVec.toNat_mul, hwide]
  exact Nat.mod_eq_of_lt hsmall

/-- An instruction that writes `I` leaves there the address it computes and changes nothing else. -/
theorem wroteI_of_exec_eq {i : Instr} {a : Word} {n : Nat} (h : exec i s = .next (advance (writeI a s)))
    (ha : a.toNat = n) :
    ∃ t, exec i s = .next t ∧ t.i.toNat = n ∧ t.pc = s.pc + 2 ∧ SameRegsBut [] s t ∧ SameTimers s t ∧
      SameStores s t ∧ t.engine = .running :=
  ⟨_, h, ha, rfl, advance_writeI_frame a s⟩

/-- An intact glyph table reads as `GLYPH_ROM` (R31). -/
theorem GlyphTableIntact.getElem?_glyphRom (h : GlyphTableIntact s) {a : Nat} (ha : a < 80) :
    s.cfg.glyphRom[a]? = some (readByte s a) := by
  rw [Vector.getElem?_eq_getElem ha]
  exact congrArg some (h ⟨a, ha⟩).symm

/-! #### Stored bytes (R168) -/

/-- Every decimal digit fits in a byte. -/
theorem bcdDigits_map_toNat (b : Byte) :
    (bcdDigits b).map BitVec.toNat = [b.toNat / 100, b.toNat / 10 % 10, b.toNat % 10] := by
  have hb : b.toNat < 256 := b.isLt
  simp (disch := omega) only [bcdDigits, List.map_cons, List.map_nil, BitVec.toNat_ofNat, Nat.mod_eq_of_lt]

/-- The byte at offset `k` of a run of stores is the `k`-th of the bytes stored. -/
theorem readByte_storeBytes_toNat {bytes : List Byte} {k n : Nat} (a : Nat) (s : State)
    (h : (bytes.map BitVec.toNat)[k]? = some n) : (readByte (storeBytes a bytes s) (a + k)).toNat = n := by
  rw [List.getElem?_map, Option.map_eq_some_iff] at h
  obtain ⟨b, hb, hn⟩ := h
  rw [readByte_storeBytes, if_pos (Nat.le_add_right ..), Nat.add_sub_cancel_left, hb]
  exact hn

/-! #### Loaded registers (R170) -/

/-- A load whose addresses are in range completes (R62). -/
theorem execLdVxMem_inRange {x : RegIdx} (h : s.i.toNat + x.val ≤ 0xFFF) :
    execLdVxMem x s = .next (advance (writeRegs (regsLoaded s x) s)) := by
  have hpass : firstFailing readFault (baseAddr s) (regCount x) = none :=
    (firstFailing_read_eq_none (Nat.succ_pos _)).2 (Nat.succ_le_succ h)
  rw [execLdVxMem, hpass]

theorem reg_regsLoaded_of_le {x r : RegIdx} (h : r ≤ x) :
    (regsLoaded s x)[r.val] = readByte s (s.i.toNat + r.val) := by
  simp [regsLoaded, baseAddr, h]

end Sys2Proof.Machine
end

section
/-! SUPPORT. The statements of 43_indexed_addressing.md. -/

namespace Sys2Proof.Machine

/-- Settles O44: each of the three writes `I` and goes on. -/
theorem addressRegisterInstructionsWriteI : Obligations.AddressRegisterInstructionsWriteI := by
  intro s nnn x
  exact ⟨wroteI_of_exec_eq rfl (addrImm_toNat nnn), wroteI_of_exec_eq rfl (add_setWidth_toNat ..),
    wroteI_of_exec_eq rfl (glyphAddr_toNat _)⟩

/-- Settles O45 from O44: memory is what it was, and row 4 of the last glyph is the last byte of the table. -/
theorem glyphAddressPointsAtTheGlyph : Obligations.GlyphAddressPointsAtTheGlyph := by
  intro s x hglyphs
  obtain ⟨-, -, t, hexec, hi, -, -, -, ⟨hmem, -⟩, -⟩ := addressRegisterInstructionsWriteI s 0 x
  refine ⟨t, hexec, fun r hr => ?_⟩
  have hrow : 5 * ((reg s x).toNat % 16) + r < 80 := by omega
  rw [hmem, hi, Nat.mul_comm _ 5]
  exact hglyphs.getElem?_glyphRom hrow

/-- Settles O46: the three addresses are writable, so the digits are stored, and nothing but their bytes changes. -/
theorem decimalDigitsAreStored : Obligations.DecimalDigitsAreStored := by
  intro s x hlo hhi
  have hlen := length_bcdDigits (reg s x)
  have hdigits := bcdDigits_map_toNat (reg s x)
  refine ⟨_, storeAtI_inRange (by omega) hlo (by omega), ?hundreds, ?tens, ?units,
    advance_storeBytes_frame s.i.toNat (bcdDigits (reg s x)) s⟩
  case hundreds => exact readByte_storeBytes_toNat (k := 0) _ s (by rw [hdigits]; rfl)
  case tens => exact readByte_storeBytes_toNat (k := 1) _ s (by rw [hdigits]; rfl)
  case units => exact readByte_storeBytes_toNat (k := 2) _ s (by rw [hdigits]; rfl)

/-- Settles O47: the bytes stored are the registers up to `X`, in order, and nothing but their bytes changes. -/
theorem registersAreStoredInOrder : Obligations.RegistersAreStoredInOrder := by
  intro s x hlo hhi
  have hlen := length_regsUpTo s x
  refine ⟨_, storeAtI_inRange (by omega) hlo (by omega), fun r hr => ?_, ?_⟩
  · exact (readByte_storeBytes_regsUpTo s s.i.toNat x r).trans (if_pos hr)
  · exact hlen ▸ advance_storeBytes_frame s.i.toNat (regsUpTo s x) s

/-- Settles O48: each register of the file written is a byte read or the register itself, by its index. -/
theorem registersAreLoadedInOrder : Obligations.RegistersAreLoadedInOrder := by
  intro s x h
  exact ⟨_, execLdVxMem_inRange h, fun _ hr => reg_regsLoaded_of_le hr,
    fun _ hr => reg_regsLoaded_of_lt (Fin.not_le.2 hr), advance_writeRegs_frame ..⟩

end Sys2Proof.Machine
end

section
/-! SUPPORT. The meanings of 44_timers.md: what writing one timer leaves unchanged, and the sound port after the timer phase. -/

namespace Sys2Proof.Machine

variable {u : State}

/-! #### Frames (R181, R182) -/

/-- An instruction that writes `DT` and goes on. -/
theorem advance_writeDt_frame (b : Byte) (s : State) :
    (advance (writeDt b s)).st = s.st ∧ (advance (writeDt b s)).pc = s.pc + 2 ∧
      SameRegsBut [] s (advance (writeDt b s)) ∧ (advance (writeDt b s)).i = s.i ∧
      SameStores s (advance (writeDt b s)) ∧ (advance (writeDt b s)).engine = .running :=
  ⟨rfl, rfl, fun _ _ => rfl, rfl, ⟨fun _ => rfl, fun _ _ => rfl, ⟨rfl, fun _ => rfl⟩, ⟨rfl, rfl⟩, rfl, rfl, rfl⟩, rfl⟩

/-- An instruction that writes `ST` and goes on. -/
theorem advance_writeSt_frame (b : Byte) (s : State) :
    (advance (writeSt b s)).dt = s.dt ∧ (advance (writeSt b s)).pc = s.pc + 2 ∧
      SameRegsBut [] s (advance (writeSt b s)) ∧ (advance (writeSt b s)).i = s.i ∧
      SameStores s (advance (writeSt b s)) ∧ (advance (writeSt b s)).engine = .running :=
  ⟨rfl, rfl, fun _ _ => rfl, rfl, ⟨fun _ => rfl, fun _ _ => rfl, ⟨rfl, fun _ => rfl⟩, ⟨rfl, rfl⟩, rfl, rfl, rfl⟩, rfl⟩

/-! #### The sound port (R240, R242) -/

/-- One timer unit is the truncated subtraction of naturals. -/
theorem countDown_toNat (t : Byte) : (countDown t).toNat = t.toNat - 1 := by
  unfold countDown
  split
  next hzero => rw [hzero]; rfl
  next hne => bv_omega

theorem sndPort_iff (s : State) : sndPort s = true ↔ 0 < s.st.toNat := by
  rw [sndPort, bne_iff_ne, ← BitVec.toNat_ne_iff_ne]
  exact Nat.pos_iff_ne_zero.symm

/-- The port shows the sound timer after the timer phase, so a completed cycle needs 2 units for 1 to be left. -/
theorem sndPort_endCycle_iff (hr : u.engine = .running) : sndPort (endCycle u) = true ↔ 2 ≤ u.st.toNat := by
  rw [sndPort_iff, endCycle_st, if_pos hr, countDown_toNat]
  exact Nat.sub_pos_iff_lt

end Sys2Proof.Machine
end

section
/-! SUPPORT. The statements of 44_timers.md. -/

namespace Sys2Proof.Machine

/-- Settles O50: one write of a register or of a timer, and the advance. -/
theorem timerInstructionsCopyTheValue : Obligations.TimerInstructionsCopyTheValue := by
  intro s x
  exact ⟨wroteReg_of_exec_eq id rfl rfl, ⟨_, rfl, rfl, advance_writeDt_frame (reg s x) s⟩,
    ⟨_, rfl, rfl, advance_writeSt_frame (reg s x) s⟩⟩

/-- Settles O19 from O50: execution leaves `V[X]` in the sound timer, and the timer phase of the same cycle takes one unit. -/
theorem soundPortAfterSettingTheSoundTimer : Obligations.SoundPortAfterSettingTheSoundTimer := by
  intro s x hfetch
  obtain ⟨-, -, u, hexec, hst, -, -, -, -, -, hrunning⟩ := timerInstructionsCopyTheValue s x
  refine ⟨endCycle u, by rw [step_of_fetches hfetch, hexec, finishCycle], ?_⟩
  rw [sndPort_endCycle_iff hrunning, hst]

end Sys2Proof.Machine
end

section
/-! SUPPORT. The meanings of 45_input.md: the key that `V[X]` names, what each instruction answers in each of its cases, and
how a cycle comes to end in `AwaitingKey`. -/

namespace Sys2Proof.Machine

variable {s t : State} {i : Instr} {x : RegIdx}

/-! #### Key skips (R190 to R192) -/

theorem keyPressed?_of_le (h : (reg s x).toNat ≤ 15) : keyPressed? s x = some ((keys s).getLsbD (reg s x).toNat) :=
  if_neg (Nat.not_lt.2 h)

theorem keyPressed?_of_gt (h : 15 < (reg s x).toNat) : keyPressed? s x = none := if_pos h

theorem execSkp_of_le (h : (reg s x).toNat ≤ 15) :
    execSkp x s = .next (skipIf ((keys s).getLsbD (reg s x).toNat) s) := by
  rw [execSkp, keyPressed?_of_le h]

theorem execSknp_of_le (h : (reg s x).toNat ≤ 15) :
    execSknp x s = .next (skipIf (!(keys s).getLsbD (reg s x).toNat) s) := by
  rw [execSknp, keyPressed?_of_le h]

theorem execSkp_of_gt (h : 15 < (reg s x).toNat) :
    execSkp x s = raise .keyIndexOutOfRange ((reg s x).setWidth 16) s := by
  rw [execSkp, keyPressed?_of_gt h]

theorem execSknp_of_gt (h : 15 < (reg s x).toNat) :
    execSknp x s = raise .keyIndexOutOfRange ((reg s x).setWidth 16) s := by
  rw [execSknp, keyPressed?_of_gt h]

/-! #### The blocking key load (R193) -/

theorem execLdVxK_of_pressed {k : Nat} (h : lowestKey (keys s) = some k) :
    execLdVxK x s = .next (advance (writeReg x (BitVec.ofNat 8 k) s)) := by
  rw [execLdVxK, keyLoad, h]

theorem execLdVxK_of_none (h : lowestKey (keys s) = none) : execLdVxK x s = .next (park s) := by
  rw [execLdVxK, keyLoad, h]

/-! #### Parking (R35, R194) -/

/-- Only the key load parks: every other shape of execution ends in `Running` or `Halted`. -/
theorem Executed.parked_of_awaitingKey (h : Executed s i t) (he : t.engine = .awaitingKey) :
    (∃ x, i = .ldVxK x) ∧ keys s = 0 ∧ t = park s := by
  cases h with
  | parked x hk => exact ⟨⟨x, rfl⟩, hk, rfl⟩
  | _ => simp at he

/-- A cycle that parks takes its sample and leaves the timers (R240, R243). -/
theorem endCycle_park_frame (s : State) :
    SameCore s (endCycle (park s)) ∧ SameFaultRegs s (endCycle (park s)) ∧ SampleTaken s (endCycle (park s)) :=
  ⟨⟨fun _ _ => rfl, rfl, rfl, ⟨rfl, rfl⟩, fun _ => rfl, fun _ _ => rfl, ⟨rfl, fun _ => rfl⟩, rfl⟩, ⟨rfl, rfl⟩, rfl, rfl⟩

end Sys2Proof.Machine
end

section
/-! SUPPORT. The statements of 45_input.md. -/

namespace Sys2Proof.Machine

/-- Settles O15: of the ways a cycle can end, only an executed key load leaves `AwaitingKey`. -/
theorem onlyTheKeyLoadParks : Obligations.OnlyTheKeyLoadParks := by
  intro s t h he
  rcases step_cases h with ⟨hh, rfl⟩ | ⟨hh, ⟨c, info, -, rfl⟩ | ⟨w, -, -, -, rfl⟩ | ⟨i, u, hr, ha, hd, hx, rfl⟩⟩
  · exact absurd (hh.symm.trans he) (by decide)
  · cases he
  · cases he
  · rw [endCycle_engine] at he
    obtain ⟨⟨x, rfl⟩, hkeys, rfl⟩ := (exec_executed hx).parked_of_awaitingKey he
    exact ⟨⟨x, hh, hr, ha, hd⟩, hkeys, endCycle_park_frame s⟩

/-- Settles O53: `k` is the lowest pressed key, and a key index fits in a register. -/
theorem keyLoadStoresTheLowestPressedKey : Obligations.KeyLoadStoresTheLowestPressedKey := by
  intro s x k hk hpressed hlower
  have hlowest : lowestKey (keys s) = some k := lowestKey_eq_some.2 ⟨hk, hpressed, hlower⟩
  have hfits : (BitVec.ofNat 8 k).toNat = k := (BitVec.toNat_ofNat k 8).trans (Nat.mod_eq_of_lt (by omega))
  exact wroteReg_of_exec_eq BitVec.toNat (execLdVxK_of_pressed hlowest) hfits

/-- Settles O54: a sample whose every bit is 0 has no lowest pressed key. -/
theorem keyLoadParksWithoutAKey : Obligations.KeyLoadParksWithoutAKey := by
  intro s x hnone
  have hkeys : keys s = 0 := BitVec.eq_of_getLsbD_eq fun k hk => by simpa using hnone k hk
  exact ⟨_, execLdVxK_of_none (lowestKey_eq_none.2 hkeys), rfl, park_frame s⟩

/-- Settles O51: each is a skip, whose test is the level of the key that `V[X]` names or its negation. -/
theorem keySkipsTestTheNamedKey : Obligations.KeySkipsTestTheNamedKey := by
  intro s x h
  have hnot (b : Bool) : (!b) = true ↔ ¬ b = true := by simp
  refine ⟨skip_of_exec_eq (execSkp_of_le h) Iff.rfl, ?_⟩
  simpa only [ite_not] using skip_of_exec_eq (i := .sknp x) (execSknp_of_le h) (hnot _)

/-- Settles O52: the index is checked before the sample is read. -/
theorem keyIndexAboveFifteenFaults : Obligations.KeyIndexAboveFifteenFaults := by
  intro s x h
  exact ⟨faulted_of_exec_eq_raise (execSkp_of_gt h), faulted_of_exec_eq_raise (execSknp_of_gt h)⟩

end Sys2Proof.Machine
end

section
/-! SUPPORT. The meanings of 46_display.md: what the two display instructions leave unchanged, and how often each pixel of the
screen is reached by a sprite (R200, R201, R203). -/

namespace Sys2Proof.Machine

variable {s t : State} {x y : RegIdx} {n : Fin 16} {px py : Nat}

/-! #### Frames (R201, R202) -/

/-- `pc` is 2 further, and everything else is unchanged but the registers listed and the screen; `ENGINE` is `Running`. -/
def DisplayFrame (written : List RegIdx) (s t : State) : Prop :=
  t.pc = s.pc + 2 ∧ SameRegsBut written s t ∧ t.i = s.i ∧ SameTimers s t ∧ SameMemory s t ∧ SameStack s t ∧
  SameFaultRegs s t ∧ t.cfg = s.cfg ∧ SameSamples s t ∧ t.engine = .running

theorem advance_writeScreen_frame (fb : List Nat) (s : State) : DisplayFrame [] s (advance (writeScreen fb s)) :=
  ⟨rfl, fun _ _ => rfl, rfl, ⟨rfl, rfl⟩, fun _ => rfl, ⟨rfl, fun _ => rfl⟩, ⟨rfl, rfl⟩, rfl, ⟨rfl, rfl⟩, rfl⟩

/-- A register written beside the screen. -/
theorem advance_writeReg_writeScreen_frame (r : RegIdx) (b : Byte) (fb : List Nat) (s : State) :
    DisplayFrame [r] s (advance (writeReg r b (writeScreen fb s))) := by
  obtain ⟨hregs, hi, htimers, ⟨hmem, -, hstack, hfault, hcfg, hsamples⟩, hrun⟩ :=
    advance_writeReg_frame r b (writeScreen fb s)
  exact ⟨rfl, hregs, hi, htimers, hmem, hstack, hfault, hcfg, hsamples, hrun⟩

/-! #### Where a draw completes (R201) -/

theorem execDrw_inRange (h : n = 0 ∨ s.i.toNat + (n.val - 1) ≤ 0xFFF) :
    execDrw x y n s =
      .next (advance (writeReg flagReg (collisionFlag (drawn x y n s).2) (writeScreen (drawn x y n s).1 s))) := by
  have hpass : firstFailing readFault (baseAddr s) n.val = none := by
    refine firstFailing_eq_none.2 fun k hk => readFault_eq_none.2 ?_
    have hn : n ≠ 0 := fun e => by simp [e] at hk
    have hend := h.resolve_left hn
    rw [baseAddr]
    omega
  rw [execDrw, hpass]

/-- A draw that leaves `ENGINE` running has passed its address checks. -/
theorem inRange_of_execDrw_running (h : execDrw x y n s = .next t) (hr : t.engine = .running) :
    n = 0 ∨ s.i.toNat + (n.val - 1) ≤ 0xFFF := by
  by_contra hout
  obtain ⟨hn, hend⟩ := not_or.1 hout
  have hn : 1 ≤ n.val := Nat.one_le_iff_ne_zero.2 (Fin.val_ne_zero_iff.2 hn)
  cases (execDrw_outOfRange hn (by omega)).symm.trans h
  cases hr

/-! #### How often a sprite reaches a pixel (R200, R201) -/

theorem count_drawDots (hx : px < s.cfg.fbW) :
    (drawDots s x y n).count (pixelIndex s.cfg px py) = spriteHits s x y n.val px py :=
  count_spriteDots s.cfg (reg s x).toNat (reg s y).toNat px py (fun r => readByte s (baseAddr s + r)) n.val hx

/-- Coordinates wrap, so a sprite reaches no pixel outside the screen (R77). -/
theorem exists_pixel_of_mem_drawDots (hW : 1 ≤ s.cfg.fbW) (hH : 1 ≤ s.cfg.fbH) {d : Nat} (h : d ∈ drawDots s x y n) :
    ∃ px py, px < s.cfg.fbW ∧ py < s.cfg.fbH ∧ pixelIndex s.cfg px py = d := by
  obtain ⟨r, col, -, -, -, hd⟩ := (mem_spriteDots ..).1 h
  exact ⟨_, _, Nat.mod_lt _ hW, Nat.mod_lt _ hH, hd⟩

/-- What a sprite reaches depends on memory, the registers, `I` and the parameters alone. -/
theorem spriteHits_congr (hmem : SameMemory s t) (hregs : SameRegsBut [] s t) (hi : t.i = s.i) (hcfg : t.cfg = s.cfg)
    (x y : RegIdx) (n px py : Nat) : spriteHits t x y n px py = spriteHits s x y n px py := by
  have hmem : ∀ a, readByte t a = readByte s a := hmem
  have hregs : ∀ r, reg t r = reg s r := fun r => hregs r List.not_mem_nil
  simp only [spriteHits, hmem, hregs, hi, hcfg]

/-! #### A sprite no larger than the screen reaches no pixel twice (R203) -/

/-- Wrapping keeps numbers less than `m` apart distinct. -/
theorem add_mod_inj {m a j k : Nat} (hj : j < m) (hk : k < m) (h : (a + j) % m = (a + k) % m) : j = k :=
  (Nat.ModEq.add_left_cancel' a h).eq_of_lt_of_lt hj hk

theorem nodup_rowDots (c : Config) (hW : 8 ≤ c.fbW) (x0 py : Nat) (b : Byte) : (rowDots c x0 py b).Nodup := by
  refine (List.nodup_range.filter _).map_on fun j hj k hk h => ?_
  have hj : j < 8 := List.mem_range.1 (List.mem_filter.1 hj).1
  have hk : k < 8 := List.mem_range.1 (List.mem_filter.1 hk).1
  have hpos : 0 < c.fbW := by omega
  have hcol := (pixelIndex_inj c (Nat.mod_lt _ hpos) (Nat.mod_lt _ hpos) h).1
  exact add_mod_inj (by omega) (by omega) hcol

theorem nodup_spriteDots (c : Config) (hW : 8 ≤ c.fbW) (x0 y0 : Nat) (rows : List Byte) (hH : rows.length ≤ c.fbH) :
    (spriteDots c x0 y0 rows).Nodup := by
  induction rows generalizing y0 with
  | nil => exact List.nodup_nil
  | cons b bs ih =>
    rw [List.length_cons] at hH
    refine List.nodup_append.2 ⟨nodup_rowDots c hW x0 _ b, ih (y0 + 1) (by omega), ?_⟩
    rintro d hd _ hd' rfl
    obtain ⟨col, -, -, he⟩ := (mem_rowDots ..).1 hd
    obtain ⟨r, col', hr, -, -, he'⟩ := (mem_spriteDots ..).1 hd'
    have hpos : 0 < c.fbW := by omega
    have hrow : y0 % c.fbH = (y0 + 1 + r) % c.fbH :=
      (pixelIndex_inj c (Nat.mod_lt _ hpos) (Nat.mod_lt _ hpos) (he.trans he'.symm)).2
    rw [Nat.add_assoc] at hrow
    have hzero : 0 = 1 + r := add_mod_inj (by omega) (by omega) hrow
    omega

theorem spriteHits_le_one (hW : 8 ≤ s.cfg.fbW) (hH : 15 ≤ s.cfg.fbH) (hx : px < s.cfg.fbW) :
    spriteHits s x y n.val px py ≤ 1 := by
  have hlen : (readBytes s (baseAddr s) n.val).length ≤ s.cfg.fbH := by
    rw [readBytes, List.length_map, List.length_range]
    omega
  rw [← count_drawDots hx]
  exact List.nodup_iff_count_le_one.1 (nodup_spriteDots s.cfg hW _ _ _ hlen) _

/-! #### Collision (R201) -/

/-- Some 1 bit of the sprite meets pixel `(px, py)` while it is 1: the pixel was lit and is reached, or it is reached twice. -/
def MeetsLitPixel (s : State) (x y : RegIdx) (n px py : Nat) : Prop :=
  pixel s px py = true ∧ 1 ≤ spriteHits s x y n px py ∨ 2 ≤ spriteHits s x y n px py

theorem MeetsLitPixel.one_le_spriteHits {n : Nat} (h : MeetsLitPixel s x y n px py) : 1 ≤ spriteHits s x y n px py :=
  h.elim And.right Nat.le_of_succ_le

/-- A pixel that is reached once at most collides by its own colour. -/
theorem MeetsLitPixel.pixel_eq_true {n : Nat} (h : MeetsLitPixel s x y n px py) (hone : spriteHits s x y n px py ≤ 1) :
    pixel s px py = true :=
  h.elim And.left fun htwo => absurd hone (Nat.not_le.2 htwo)

theorem drawn_collides_iff (hW : 1 ≤ s.cfg.fbW) (hH : 1 ≤ s.cfg.fbH) :
    (drawn x y n s).2 = true ↔
      ∃ px py, px < s.cfg.fbW ∧ py < s.cfg.fbH ∧ MeetsLitPixel s x y n.val px py := by
  rw [drawn, hit_xorDots]
  constructor
  · rintro (hfalse | ⟨d, hd⟩)
    · cases hfalse
    · have hcount : 0 < (drawDots s x y n).count d := hd.elim And.right Nat.le_of_succ_le
      obtain ⟨px, py, hx, hy, rfl⟩ := exists_pixel_of_mem_drawDots hW hH (List.count_pos_iff.1 hcount)
      rw [count_drawDots hx] at hd
      exact ⟨px, py, hx, hy, hd⟩
  · rintro ⟨px, py, hx, -, h⟩
    refine .inr ⟨pixelIndex s.cfg px py, ?_⟩
    rw [count_drawDots hx]
    exact h

end Sys2Proof.Machine
end

section
/-! SUPPORT. The statements of 46_display.md. -/

namespace Sys2Proof.Machine

/-- Settles O16: neither execution nor fault entry nor the end of the cycle writes `cfg`. -/
theorem noCycleChangesTheParameters : Obligations.NoCycleChangesTheParameters := by
  intro s t h
  rcases step_executed h with ⟨-, rfl⟩ | ⟨-, u, rfl, hu⟩
  · rfl
  · rw [endCycle_cfg]
    rcases hu with ⟨c, info, rfl⟩ | ⟨i, hx⟩
    · rfl
    · exact hx.cfg_eq

/-- Settles O55: the dots drawn reach each pixel as often as `spriteHits` counts, and only pixels of the screen. -/
theorem drawFlipsPixelsAndReportsCollision : Obligations.DrawFlipsPixelsAndReportsCollision := by
  intro s x y n hW hH hrange
  refine ⟨_, execDrw_inRange hrange, fun px py hx _ => ?pixels, fun hsome => ?lit, fun hnone => ?clear,
    advance_writeReg_writeScreen_frame ..⟩
  case pixels =>
    rw [← count_drawDots hx]
    exact contains_xorDots _ _ _
  case lit =>
    rw [reg_advance_writeReg, (drawn_collides_iff hW hH).2 hsome]
    rfl
  case clear =>
    have hmiss : (drawn x y n s).2 = false := Bool.eq_false_iff.2 fun hhit =>
      let ⟨px, py, hx, hy, h⟩ := (drawn_collides_iff hW hH).1 hhit
      hnone px py hx hy h
    rw [reg_advance_writeReg, hmiss]
    rfl

/-- Settles O56 from O55 for each draw: the second reaches every pixel as often as the first, and on a large screen that is
once at most, so a clear target is lit between the two exactly where the sprite has a 1 bit. -/
theorem drawingTwiceRestoresTheScreen : Obligations.DrawingTwiceRestoresTheScreen := by
  intro s t u x y n hW hH ht hrun hu
  have hrange := inRange_of_execDrw_running ht hrun
  obtain ⟨_, ht', htpixel, -, htclear, -, -, hti, -, htmem, -, -, htcfg, -⟩ :=
    drawFlipsPixelsAndReportsCollision s x y n hW hH hrange
  cases ht'.symm.trans ht
  generalize hr : { t with v := s.v } = r at hu
  have hri : r.i = s.i := hr ▸ hti
  have hrcfg : r.cfg = s.cfg := hr ▸ htcfg
  have hrpixel : ∀ px py, pixel r px py = pixel t px py := hr ▸ fun _ _ => rfl
  have hrhits : ∀ px py, spriteHits r x y n px py = spriteHits s x y n px py :=
    spriteHits_congr (hr ▸ htmem) (hr ▸ fun _ _ => rfl) hri hrcfg x y n
  obtain ⟨_, hu', hupixel, hulit, huclear, -⟩ :=
    drawFlipsPixelsAndReportsCollision r x y n (hrcfg ▸ hW) (hrcfg ▸ hH) (hri ▸ hrange)
  cases hu'.symm.trans hu
  simp only [hrhits, hrpixel, hrcfg] at hupixel hulit huclear
  refine ⟨fun px py hx hy => ?restored, fun hW8 hH15 htarget => ⟨?first, ?second⟩⟩
  case restored => rw [hupixel px py hx hy, htpixel px py hx hy, Bool.xor_assoc, Bool.xor_self, Bool.xor_false]
  case first =>
    refine htclear fun px py hx hy (hmeet : MeetsLitPixel s x y n px py) => ?_
    have hdark := htarget px py hx hy hmeet.one_le_spriteHits
    exact Bool.false_ne_true (hdark.symm.trans (hmeet.pixel_eq_true (spriteHits_le_one hW8 hH15 hx)))
  case second =>
    constructor
    · intro hflag
      by_contra hnone
      have hzero := huclear fun px py hx hy hmeet => hnone ⟨px, py, hx, hy, hmeet.elim And.right Nat.le_of_succ_le⟩
      exact absurd (hzero.symm.trans hflag) (by decide)
    · rintro ⟨px, py, hx, hy, hhit⟩
      have hone : spriteHits s x y n px py = 1 := le_antisymm (spriteHits_le_one hW8 hH15 hx) hhit
      have hlit : pixel t px py = true := by rw [htpixel px py hx hy, htarget px py hx hy hhit, hone]; rfl
      exact hulit ⟨px, py, hx, hy, .inl ⟨hlit, hhit⟩⟩

/-- Settles O57: the row of O3, and no pixel of an empty screen is lit. -/
theorem clearScreenZeroesEveryPixel : Obligations.ClearScreenZeroesEveryPixel :=
  ⟨fun w hw => (decodeFollowsMaskAndMatch w).1.2 hw,
    fun s => ⟨_, rfl, fun _ _ => rfl, advance_writeScreen_frame [] s⟩⟩

end Sys2Proof.Machine
end

section
/-! SUPPORT. The faults of 60_exceptions.md (R220 to R224): how a cycle comes to halt, how it comes to complete an instruction,
and what each leaves in the timers (R240). -/

namespace Sys2Proof.Machine

variable {s t u : State} {i : Instr}

/-! #### Halting (R222, R223) -/

/-- Only fault entry halts, with a fault of the instruction's row in R224: every other shape of execution ends in `Running`
or `AwaitingKey`. -/
theorem Executed.eq_enterFault_of_halted (h : Executed s i t) (he : t.engine = .halted) :
    ∃ c info, c ∈ faultsAtExecution i ∧ t = enterFault c info s := by
  cases h with
  | faulted c info hc => exact ⟨c, info, hc, rfl⟩
  | _ => simp at he

/-- A cycle that halts the engine is a fault entry and the end of the cycle. -/
theorem step_eq_enterFault_of_halted (hh : s.engine ≠ .halted) (h : step s = .next t) (he : t.engine = .halted) :
    ∃ c info, t = endCycle (enterFault c info s) := by
  rcases step_executed h with ⟨hs, -⟩ | ⟨-, u, rfl, ⟨c, info, rfl⟩ | ⟨i, hx⟩⟩
  · exact absurd hs hh
  · exact ⟨c, info, rfl⟩
  · rw [endCycle_engine] at he
    obtain ⟨c, info, -, rfl⟩ := hx.eq_enterFault_of_halted he
    exact ⟨c, info, rfl⟩

/-! #### Completing an instruction (R100) -/

/-- A cycle that ends in `Running` completed a fetched instruction. -/
theorem step_eq_endCycle_of_running (h : step s = .next t) (hr : t.engine = .running) :
    ∃ i u, Fetches s i ∧ exec i s = .next u ∧ u.engine = .running ∧ t = endCycle u := by
  rcases step_cases h with ⟨hh, rfl⟩ | ⟨hh, ⟨c, info, -, rfl⟩ | ⟨w, -, -, -, rfl⟩ | ⟨i, u, hpc, ha, hd, hx, rfl⟩⟩
  · rw [hh] at hr; cases hr
  · cases hr
  · cases hr
  · rw [endCycle_engine] at hr
    exact ⟨i, u, ⟨hh, hpc, ha, hd⟩, hx, hr, rfl⟩

/-! #### The timers (R181, R182, R240) -/

theorem dt_of_exec_ldDtVx {x : RegIdx} (h : exec (.ldDtVx x) s = .next t) : t.dt = reg s x := by
  cases h; rfl

theorem st_of_exec_ldStVx {x : RegIdx} (h : exec (.ldStVx x) s = .next t) : t.st = reg s x := by
  cases h; rfl

/-- An instruction that parked or faulted leaves both timers (R193, R222). -/
theorem Executed.sameTimers_of_not_running (h : Executed s i t) (hr : t.engine ≠ .running) : SameTimers s t := by
  cases h with
  | faulted | parked => exact ⟨rfl, rfl⟩
  | _ => exact absurd (by simp) hr

/-- The timer phase does not run where no instruction completed. -/
theorem sameTimers_endCycle_of_not_running (hr : u.engine ≠ .running) : SameTimers u (endCycle u) :=
  ⟨by rw [endCycle_dt, if_neg hr], by rw [endCycle_st, if_neg hr]⟩

/-- A cycle that does not end in `Running` leaves both timers. -/
theorem sameTimers_of_step_not_running (h : step s = .next t) (hr : t.engine ≠ .running) : SameTimers s t := by
  rcases step_executed h with ⟨-, rfl⟩ | ⟨-, u, rfl, hu⟩
  · exact ⟨rfl, rfl⟩
  · rw [endCycle_engine] at hr
    obtain ⟨hdt, hst⟩ := sameTimers_endCycle_of_not_running hr
    have hexec : SameTimers s u := by
      rcases hu with ⟨c, info, rfl⟩ | ⟨i, hx⟩
      · exact ⟨rfl, rfl⟩
      · exact hx.sameTimers_of_not_running hr
    exact ⟨hdt.trans hexec.1, hst.trans hexec.2⟩

theorem dt_endCycle_of_running {b : Byte} (hr : u.engine = .running) (hb : u.dt = b) :
    (endCycle u).dt = if b = 0 then 0 else b - 1 := by
  rw [endCycle_dt, if_pos hr, hb, countDown]

theorem st_endCycle_of_running {b : Byte} (hr : u.engine = .running) (hb : u.st = b) :
    (endCycle u).st = if b = 0 then 0 else b - 1 := by
  rw [endCycle_st, if_pos hr, hb, countDown]

end Sys2Proof.Machine
end

section
/-! SUPPORT. The statements of 60_exceptions.md. -/

namespace Sys2Proof.Machine

/-- Settles O10: a cycle that halts is a fault entry from the state it started in, and the codes of R221's table are 1 to 7. -/
theorem everyHaltIsPrecise : Obligations.EveryHaltIsPrecise := by
  intro s t hh h he
  obtain ⟨c, info, rfl⟩ := step_eq_enterFault_of_halted hh h he
  obtain ⟨hfaulted, hsample⟩ := endCycle_enterFault_faulted c info s
  refine ⟨c, info, hfaulted, hsample, ?_⟩
  rw [endCycle_faultCode, enterFault_faultCode]
  exact faultCodeOf_range c

/-- Settles O18: the timer phase counts down what the executed instruction left, which is `V[X]` in the timer that FX15 or
FX18 names and the old value in every other case. -/
theorem timersCountDownOncePerCompletedCycle : Obligations.TimersCountDownOncePerCompletedCycle := by
  intro s t h
  refine ⟨sameTimers_of_step_not_running h, fun hr => ?_⟩
  obtain ⟨i, u, hfetch, hx, hrun, rfl⟩ := step_eq_endCycle_of_running h hr
  refine ⟨i, hfetch, ?_, fun hi => ?_, ?_, fun hi => ?_⟩
  · rintro x rfl
    exact dt_endCycle_of_running hrun (dt_of_exec_ldDtVx hx)
  · exact dt_endCycle_of_running hrun ((exec_executed hx).dt_eq hi)
  · rintro x rfl
    exact st_endCycle_of_running hrun (st_of_exec_ldStVx hx)
  · exact st_endCycle_of_running hrun ((exec_executed hx).st_eq hi)

/-- Settles O23: execution halts by fault entry only, with a fault of the instruction's row. -/
theorem eachInstructionRaisesOnlyItsFaults : Obligations.EachInstructionRaisesOnlyItsFaults := by
  intro i s t h he
  obtain ⟨c, info, hc, rfl⟩ := (exec_executed h).eq_enterFault_of_halted he
  exact ⟨c, info, hc, enterFault_faulted c info s⟩

/-- Settles O9: the cycle's first test answers the halted state itself, and `hostReset` writes every field but the
parameters and the samples. -/
theorem haltedCycleChangesNothing : Obligations.HaltedCycleChangesNothing :=
  fun _ hh => ⟨hh, if_pos hh, rfl, rfl, rfl⟩

end Sys2Proof.Machine
end

section
/-! SUPPORT. The host's operations (R38, R260, R262): reset, program load, and the stores both loads make. -/

namespace Sys2Proof.Machine

variable {s t : State}

/-! #### Reset (R40, R260) -/

/-- Below 0x050 an unlisted byte is the glyph table's (R31). -/
theorem unlistedByte_glyph (rom : Vector Byte 80) (a : Fin 80) : unlistedByte rom a.val = rom[a] := by
  rw [unlistedByte, Vector.getElem?_eq_getElem a.isLt]
  rfl

/-- Above the glyph table an unlisted byte is 0 (R32). -/
theorem unlistedByte_above (rom : Vector Byte 80) {a : Nat} (h : 0x050 ≤ a) : unlistedByte rom a = 0 := by
  rw [unlistedByte, Vector.getElem?_eq_none h]
  rfl

theorem readByte_resetWith (c : Config) (a : Nat) : readByte (State.resetWith c) a = unlistedByte c.glyphRom a := rfl

theorem readByte_hostReset (s : State) (a : Nat) : readByte (hostReset s) a = unlistedByte s.cfg.glyphRom a := rfl

theorem reg_hostReset (s : State) (r : RegIdx) : reg (hostReset s) r = 0 := Vector.getElem_replicate r.isLt

theorem stack_hostReset (s : State) (j : Fin 16) : (hostReset s).stack[j] = 0 := Vector.getElem_replicate j.isLt

theorem inv_resetWith {c : Config} (hc : c.wellFormed = true) : (State.resetWith c).Inv where
  config := hc
  memory := resetWith_memory_wf c
  glyphs a := (readByte_resetWith c a).trans (unlistedByte_glyph c.glyphRom a)
  stackPointer := Nat.zero_le _
  screen := rfl
  faultRegs := (faultRegsFit_of_not_halted (by simp [State.resetWith])).2 ⟨rfl, rfl⟩

/-- The samples that reset leaves to the host are no part of the invariant. -/
theorem inv_hostReset (hc : s.cfg.wellFormed = true) : (hostReset s).Inv :=
  { inv_resetWith hc with }

/-! #### Stores at rising addresses -/

/-- The byte `k` of a run of stores stands at its place. -/
theorem readByte_storeBytes_of_lt {bs : List Byte} {k : Nat} (hk : k < bs.length) (a : Nat) (s : State) :
    readByte (storeBytes a bs s) (a + k) = bs[k] := by
  rw [readByte_storeBytes, if_pos (Nat.le_add_right a k), Nat.add_sub_cancel_left, List.getElem?_eq_getElem hk]
  rfl

theorem storeBytes_eq_with_mem (a : Nat) (bs : List Byte) (s : State) :
    storeBytes a bs s = { s with mem := (storeBytes a bs s).mem } := by
  induction bs generalizing a s with
  | nil => rfl
  | cons b bs ih => exact ih (a + 1) (writeByte a b s)

/-- Stores above the glyph table and inside the address space keep the invariant (R31, R61). -/
theorem inv_storeBytes {a : Nat} {bs : List Byte} (hs : s.Inv) (hlo : 0x050 ≤ a) (hhi : a + bs.length ≤ memSize) :
    (storeBytes a bs s).Inv where
  config := by simpa using hs.config
  memory := by simpa using storeBytes_wf bs a s hs.memory hhi
  glyphs := hs.glyphs.of_readByte_eq (by simp) fun b hb => storeBytes_outside bs a s b (.inl (by omega))
  stackPointer := by simpa using hs.stackPointer
  screen := by simpa using hs.screen
  faultRegs := by simpa [FaultRegsFit] using hs.faultRegs

/-! #### Loads (R262) -/

variable {image : List Byte}

theorem imageFits_iff : imageFits image = true ↔ image.length ≤ progMax := decide_eq_true_iff

theorem hostLoad_next (hs : s = hostReset s) (hfit : image.length ≤ progMax) :
    hostLoad image s = .next (storeBytes progBase image s) := by
  rw [hostLoad, if_neg (not_not.2 hs), if_pos (imageFits_iff.2 hfit)]

theorem hostLoad_tooLarge (hs : s = hostReset s) (hbig : progMax < image.length) :
    hostLoad image s = .refused .imageTooLarge := by
  rw [hostLoad, if_neg (not_not.2 hs), if_neg (fun h => (imageFits_iff.1 h).not_gt hbig)]

theorem hostLoad_outside (hs : s ≠ hostReset s) : hostLoad image s = .refused .loadOutsideReset := if_pos hs

/-- A program load that answers has stored an image that fits. -/
theorem hostLoad_eq_next (h : hostLoad image s = .next t) :
    image.length ≤ progMax ∧ t = storeBytes progBase image s := by
  by_cases hs : s = hostReset s
  · rcases Nat.lt_or_ge progMax image.length with hbig | hfit
    · rw [hostLoad_tooLarge hs hbig] at h
      cases h
    · rw [hostLoad_next hs hfit] at h
      cases h
      exact ⟨hfit, rfl⟩
  · rw [hostLoad_outside hs] at h
    cases h

/-- A load port write that answers has stored its byte at 0x200 or above. -/
theorem loadPort_eq_next {a : Addr12} {b : Byte} (h : loadPort a b s = .next t) :
    progBase ≤ a.toNat ∧ t = storeBytes a.toNat [b] s := by
  cases hs : beforeFirstCycle s with
  | false =>
    rw [loadPort_outside hs] at h
    cases h
  | true =>
    rcases Nat.lt_or_ge a.toNat progBase with hlow | hprog
    · rw [loadPort_below hs hlow] at h
      cases h
    · rw [loadPort_next hs hprog] at h
      cases h
      exact ⟨hprog, rfl⟩

end Sys2Proof.Machine
end

section
/-! SUPPORT. An `SP` of 17 to 31 (R29, log entry 5): only CALL and RET look at it, and they stop. -/

namespace Sys2Proof.Machine

variable {s : State} {i : Instr}

/-- CALL or RET, with an `SP` that is never produced (R29). -/
def UsesInvalidStackPointer (i : Instr) (s : State) : Prop :=
  16 < s.sp.toNat ∧ (i = .ret ∨ ∃ nnn, i = .call nnn)

theorem execCall_of_invalid (nnn : Addr12) (h : 16 < s.sp.toNat) : execCall nnn s = .fault .stackPointerInvalid := by
  have hfull : s.sp ≠ 16 := by bv_omega
  rw [execCall, if_neg hfull, pushReturn_of_ge _ h.le]

theorem popReturn_of_gt (h : 16 < s.sp.toNat) : popReturn s = none := by
  rw [popReturn, Vector.getElem?_eq_none (by omega)]

theorem execRet_of_invalid (h : 16 < s.sp.toNat) : execRet s = .fault .stackPointerInvalid := by
  have hempty : s.sp ≠ 0 := by bv_omega
  rw [execRet, if_neg hempty, popReturn_of_gt h]

/-- Every instruction but CALL and RET answers a next state, whatever `SP` is. -/
theorem exec_next_of_not_stack (hret : i ≠ .ret) (hcall : ∀ nnn, i ≠ .call nnn) (s : State) : ∃ t, exec i s = .next t := by
  cases i with
  | ret => exact absurd rfl hret
  | call nnn => exact absurd rfl (hcall nnn)
  | ldB | ldMemVx => exact storeAtI_next _ s
  | drw x y n => exact execDrw_next x y n s
  | ldVxMem x => exact execLdVxMem_next x s
  | skp x => exact execSkp_next x s
  | sknp x => exact execSknp_next x s
  | _ => exact ⟨_, rfl⟩

/-- What execution answers: a stop in CALL and RET with an `SP` above 16, and a next state everywhere else. -/
theorem exec_cases (i : Instr) (s : State) :
    (UsesInvalidStackPointer i s ∧ exec i s = .fault .stackPointerInvalid) ∨
      (¬ UsesInvalidStackPointer i s ∧ ∃ t, exec i s = .next t) := by
  rcases Nat.lt_or_ge 16 s.sp.toNat with hsp | hsp
  · by_cases hi : i = .ret ∨ ∃ nnn, i = .call nnn
    · refine .inl ⟨⟨hsp, hi⟩, ?_⟩
      rcases hi with rfl | ⟨nnn, rfl⟩
      · exact execRet_of_invalid hsp
      · exact execCall_of_invalid nnn hsp
    · exact .inr ⟨fun h => hi h.2, exec_next_of_not_stack (fun h => hi (.inl h)) (fun nnn h => hi (.inr ⟨nnn, h⟩)) s⟩
  · exact .inr ⟨fun h => absurd h.1 (Nat.not_lt.2 hsp), exec_next i hsp⟩

end Sys2Proof.Machine
end

section
/-! SUPPORT. The canonical form of memory determines the data (log entry 3): its cells are exactly the bytes that read
other than unlisted, in rising order. -/

namespace Sys2Proof.Machine

variable {rom : Vector Byte 80} {m : List Host.Cell}

theorem mem_of_lookupCell_eq_some {a : Nat} {b : Byte} (h : lookupCell a m = some b) : (a, b) ∈ m := by
  induction m with
  | nil => cases h
  | cons c cs ih =>
    rw [lookupCell] at h
    split at h
    · next ha =>
      cases h
      exact ha ▸ List.mem_cons_self ..
    · exact List.mem_cons_of_mem _ (ih h)

/-- In a rising list every cell is the one its address finds: a cell before it has a lower address. -/
theorem lookupCell_of_mem (hr : cellsRising m = true) {c : Host.Cell} (hc : c ∈ m) : lookupCell c.1 m = some c.2 := by
  induction m with
  | nil => cases hc
  | cons d ds ih =>
    obtain ⟨habove, hds⟩ := (cellsRising_cons d ds).1 hr
    rcases List.mem_cons.1 hc with rfl | hc
    · exact if_pos rfl
    · rw [lookupCell, if_neg (habove c hc).ne, ih hds hc]

/-- The cells of a canonical memory, said by its reads. -/
theorem Memory.mem_iff_read (hwf : Memory.wf rom m = true) (c : Host.Cell) :
    c ∈ m ↔ Memory.read rom m c.1 = c.2 ∧ c.2 ≠ unlistedByte rom c.1 := by
  obtain ⟨hr, hcells⟩ := (Memory.wf_iff rom m).1 hwf
  rw [Memory.read]
  constructor
  · intro hc
    rw [lookupCell_of_mem hr hc]
    exact ⟨rfl, (hcells c hc).2⟩
  · rintro ⟨hread, hne⟩
    cases hl : lookupCell c.1 m with
    | none =>
      rw [hl] at hread
      exact absurd hread.symm hne
    | some b =>
      obtain rfl : b = c.2 := by simpa [hl] using hread
      exact mem_of_lookupCell_eq_some hl

/-- The rising order as a relation between any two cells of the list, for the library's lemmas on sorted lists. -/
theorem pairwise_of_cellsRising (hr : cellsRising m = true) : m.Pairwise (Prod.fst ⁻¹'o (· < ·)) := by
  induction m with
  | nil => exact .nil
  | cons c cs ih =>
    obtain ⟨habove, hcs⟩ := (cellsRising_cons c cs).1 hr
    exact .cons habove (ih hcs)

end Sys2Proof.Machine
end

section
/-! SUPPORT. The statements of 70_reset_and_hazards.md, of the invariant at reset, and of the model's own choices on `SP`
and on the form of memory. -/

namespace Sys2Proof.Machine

/-- Settles O26: one clause per branch of the load. -/
theorem programLoadCopiesTheImageOrRefuses : Obligations.ProgramLoadCopiesTheImageOrRefuses :=
  fun image s =>
    ⟨fun hs hfit => ⟨_, hostLoad_next hs hfit, storeBytes_eq_with_mem progBase image s,
        fun k => readByte_storeBytes_of_lt k.isLt progBase s, storeBytes_outside image progBase s⟩,
      hostLoad_tooLarge, hostLoad_outside⟩

/-- Settles O28: both loads are stores from 0x200 or above that end inside the address space. -/
theorem hostOperationsKeepTheInvariant : Obligations.HostOperationsKeepTheInvariant := by
  refine fun s t => ⟨inv_hostReset, fun image hs h => ?_, fun a b hs h => ?_⟩
  · obtain ⟨hfit, rfl⟩ := hostLoad_eq_next h
    exact inv_storeBytes hs (by decide) (Nat.add_le_add_left hfit progBase)
  · obtain ⟨hprog, rfl⟩ := loadPort_eq_next h
    exact inv_storeBytes hs (le_trans (by decide) hprog) a.isLt

/-- Settles O14: the default parameters are legal. -/
theorem invariantHoldsAtReset : Obligations.InvariantHoldsAtReset :=
  ⟨inv_resetWith (by decide), fun _ => inv_resetWith⟩

/-- Settles O25: memory reads as unlisted everywhere, and the other fields are the literals of `State.resetWith`. -/
theorem resetLeavesTheStatedValues : Obligations.ResetLeavesTheStatedValues :=
  fun s => ⟨reg_hostReset s, rfl, rfl, rfl, stack_hostReset s, rfl, rfl,
    fun a => (readByte_hostReset s a).trans (unlistedByte_glyph _ a),
    fun a ha => (readByte_hostReset s a).trans (unlistedByte_above _ ha),
    fun _ _ => rfl, rfl, rfl, rfl, rfl⟩

/-- Settles O12: execution answers a next state or, in CALL and RET with `SP` above 16, the fault. -/
theorem onlyAnInvalidStackPointerStops : Obligations.OnlyAnInvalidStackPointerStops := by
  intro i s
  rcases exec_cases i s with ⟨hstop, hx⟩ | ⟨hgo, t, hx⟩
  · rw [hx]
    refine ⟨nofun, fun f => ⟨fun h => ?_, fun h => h.1 ▸ rfl⟩⟩
    cases h
    exact ⟨rfl, hstop⟩
  · rw [hx]
    exact ⟨nofun, fun f => ⟨nofun, fun h => absurd h.2 hgo⟩⟩

/-- Settles O29: both lists hold the same cells, in the same strict order. -/
theorem canonicalMemoriesWithEqualReadsAreEqual : Obligations.CanonicalMemoriesWithEqualReadsAreEqual := by
  intro rom m m' hwf hwf' hread
  have hcells : ∀ c, c ∈ m ↔ c ∈ m' := fun c => by
    rw [Memory.mem_iff_read hwf, Memory.mem_iff_read hwf', hread]
  exact (pairwise_of_cellsRising ((Memory.wf_iff rom m).1 hwf).1).eq_of_mem_iff
    (pairwise_of_cellsRising ((Memory.wf_iff rom m').1 hwf').1) hcells

end Sys2Proof.Machine
end
